-- ==== Sys2Proof/Word.lean ====
section
/-! DEFINITION. The two bit vectors of the machine (`20_memory.md` R50, `00_scope.md` R12). -/

namespace Sys2Proof

/-- A 16-bit register, address or memory word; arithmetic on it is modulo 2^16 (R12). -/
abbrev Word := BitVec 16

/-- An 8-bit byte, the unit of addressing (R50). -/
abbrev Byte := BitVec 8

end Sys2Proof
end

