-- ==== Sys2Proof/Syntax/Fields.lean ====
section
/-! DEFINITION. The configuration fields of the instruction word (`30_encoding.md` R81 to R85), and the
names under which a decoder rejects (R96, R97). -/

namespace Sys2Proof

/-- Field `cond`, `w[2:0]`: when the command is executed (R82). -/
inductive Cond where
  | always | zero | nonzero | greater | less | gequal | lequal | ovfl
deriving DecidableEq, Repr

/-- Fields `in0`, `w[4:3]`, and `in1`, `w[6:5]`: how an input is filled (R83). -/
inductive InputMode where
  | zero | imm | peek | pop
deriving DecidableEq, Repr

/-- Field `flag`, `w[7]`: whether `Z` and `N` are set from the output (R84). -/
inductive FlagMode where
  | no | yes
deriving DecidableEq, Repr

/-- Field `out`, `w[8]`: what is done with the output (R85). -/
inductive OutputMode where
  | discard | push
deriving DecidableEq, Repr

/-- The configuration part of an instruction (R80, R81). Every combination is legal with every command
(R88). -/
structure Conf where
  cond : Cond
  in0  : InputMode
  in1  : InputMode
  flag : FlagMode
  out  : OutputMode
deriving DecidableEq, Repr

/-- Why bytes are no instruction. -/
inductive DecodeError where
  /-- Fewer bytes than the instruction is long. -/
  | truncated
  /-- Bit 15 of the instruction word is 1 (R97). -/
  | reservedBit15
  /-- The command field is 1 or 35 to 63 (R96). -/
  | reservedCommand
deriving DecidableEq, Repr

end Sys2Proof
end

