-- ==== Sys2Proof/Syntax.lean ====
section
/-! DEFINITION. The instructions: one constructor per row of the command table (`30_encoding.md` R95). Each
carries the five configuration fields; the immediate words are read from memory as the instruction
executes (`40_execution_model.md` R118; log entry 11). -/

namespace Sys2Proof

/-- The 34 commands, each with its configuration part. -/
inductive Instr where
  /-- `COPY` (R140). -/
  | copy (c : Conf)
  /-- `GET` (R141). -/
  | get (c : Conf)
  /-- `SET` (R142). -/
  | set (c : Conf)
  /-- `STORE8` (R143). -/
  | store8 (c : Conf)
  /-- `STORE16` (R144). -/
  | store16 (c : Conf)
  /-- `LOAD8` (R145). -/
  | load8 (c : Conf)
  /-- `LOAD16` (R146). -/
  | load16 (c : Conf)
  /-- `CPUID` (R150). -/
  | cpuid (c : Conf)
  /-- `HALT` (R151). -/
  | halt (c : Conf)
  /-- `FRGET` (R152). -/
  | frget (c : Conf)
  /-- `FRSET` (R153). -/
  | frset (c : Conf)
  /-- `BPGET` (R154). -/
  | bpget (c : Conf)
  /-- `BPSET` (R155). -/
  | bpset (c : Conf)
  /-- `SPGET` (R156). -/
  | spget (c : Conf)
  /-- `SPSET` (R157). -/
  | spset (c : Conf)
  /-- `ADD` (R161). -/
  | add (c : Conf)
  /-- `SUB` (R162). -/
  | sub (c : Conf)
  /-- `MUL` (R163). -/
  | mul (c : Conf)
  /-- `DIV` (R164). -/
  | div (c : Conf)
  /-- `MOD` (R165). -/
  | mod (c : Conf)
  /-- `AND` (R170). -/
  | and (c : Conf)
  /-- `OR` (R171). -/
  | or (c : Conf)
  /-- `XOR` (R172). -/
  | xor (c : Conf)
  /-- `NOT` (R173). -/
  | not (c : Conf)
  /-- `SIGNEXT` (R174). -/
  | signext (c : Conf)
  /-- `ROL` (R175). -/
  | rol (c : Conf)
  /-- `ROR` (R176). -/
  | ror (c : Conf)
  /-- `BSWAP` (R177). -/
  | bswap (c : Conf)
  /-- `ASR` (R178). -/
  | asr (c : Conf)
  /-- `LSL` (R179). -/
  | lsl (c : Conf)
  /-- `LSR` (R180). -/
  | lsr (c : Conf)
  /-- `SETIP` (R185). -/
  | setip (c : Conf)
  /-- `ADDIP` (R186). -/
  | addip (c : Conf)
  /-- `INTR` (R187). -/
  | intr (c : Conf)
deriving DecidableEq, Repr

/-- An instruction with the immediate words that follow it in memory, input 0's first (R86, R87): what a
program text holds. -/
structure FullInstr where
  instr : Instr
  imms  : List Word
deriving DecidableEq, Repr

end Sys2Proof
end

