-- ==== Sys2Proof/Decode.lean ====
section
/-! DEFINITION. Decoding and encoding (`30_encoding.md` R80 to R97). `decodeWord` reads the instruction word
alone, as the cycle does (`40_execution_model.md` R112); `decode` reads an instruction with its immediate words from a list
of bytes. The encoder stands after the decoder and is written from the same table R81. -/

namespace Sys2Proof

/-- Bits `[lo + n - 1 : lo]` of a word (R8). -/
def bits (w : Word) (lo n : Nat) : BitVec n := w.extractLsb' lo n

/-- The word whose less significant byte is `lo` (little endian, `20_memory.md` R51). -/
def wordOfBytes (lo hi : Byte) : Word := hi ++ lo

/-- `v[7:0]`. -/
def loByte (v : Word) : Byte := v.extractLsb' 0 8

/-- `v[15:8]`. -/
def hiByte (v : Word) : Byte := v.extractLsb' 8 8

/-! ### The decoder -/

/-- R82, the values of `w[2:0]`. -/
def condOfBits (b : BitVec 3) : Cond :=
  match b.toNat with
  | 0 => .always
  | 1 => .zero
  | 2 => .nonzero
  | 3 => .greater
  | 4 => .less
  | 5 => .gequal
  | 6 => .lequal
  | _ => .ovfl

/-- R83, the values of `w[4:3]` and of `w[6:5]`. -/
def inputOfBits (b : BitVec 2) : InputMode :=
  match b.toNat with
  | 0 => .zero
  | 1 => .imm
  | 2 => .peek
  | _ => .pop

/-- R84, the values of `w[7]`. -/
def flagOfBits (b : BitVec 1) : FlagMode :=
  match b.toNat with
  | 0 => .no
  | _ => .yes

/-- R85, the values of `w[8]`. -/
def outputOfBits (b : BitVec 1) : OutputMode :=
  match b.toNat with
  | 0 => .discard
  | _ => .push

/-- The configuration part of an instruction word (R81). -/
def confOfWord (w : Word) : Conf :=
  { cond := condOfBits (bits w 0 3)
    in0  := inputOfBits (bits w 3 2)
    in1  := inputOfBits (bits w 5 2)
    flag := flagOfBits (bits w 7 1)
    out  := outputOfBits (bits w 8 1) }

/-- The command map R95; `none` for the reserved values 1 and 35 to 63 (R96). -/
def commandOfBits (b : BitVec 6) (c : Conf) : Option Instr :=
  match b.toNat with
  | 0 => some (.copy c)
  | 2 => some (.get c)
  | 3 => some (.set c)
  | 4 => some (.store8 c)
  | 5 => some (.store16 c)
  | 6 => some (.load8 c)
  | 7 => some (.load16 c)
  | 8 => some (.cpuid c)
  | 9 => some (.halt c)
  | 10 => some (.frget c)
  | 11 => some (.frset c)
  | 12 => some (.bpget c)
  | 13 => some (.bpset c)
  | 14 => some (.spget c)
  | 15 => some (.spset c)
  | 16 => some (.add c)
  | 17 => some (.sub c)
  | 18 => some (.mul c)
  | 19 => some (.div c)
  | 20 => some (.mod c)
  | 21 => some (.and c)
  | 22 => some (.or c)
  | 23 => some (.xor c)
  | 24 => some (.not c)
  | 25 => some (.signext c)
  | 26 => some (.rol c)
  | 27 => some (.ror c)
  | 28 => some (.bswap c)
  | 29 => some (.asr c)
  | 30 => some (.lsl c)
  | 31 => some (.lsr c)
  | 32 => some (.setip c)
  | 33 => some (.addip c)
  | 34 => some (.intr c)
  | _ => none

/-- R88: bit 15 first, then the command, then the other fields. -/
def decodeWord (w : Word) : Except DecodeError Instr :=
  if w.getLsbD 15 then .error .reservedBit15
  else
    match commandOfBits (bits w 9 6) (confOfWord w) with
    | some i => .ok i
    | none => .error .reservedCommand

/-- The configuration part of an instruction. -/
def Instr.conf : Instr → Conf
  | .copy c => c
  | .get c => c
  | .set c => c
  | .store8 c => c
  | .store16 c => c
  | .load8 c => c
  | .load16 c => c
  | .cpuid c => c
  | .halt c => c
  | .frget c => c
  | .frset c => c
  | .bpget c => c
  | .bpset c => c
  | .spget c => c
  | .spset c => c
  | .add c => c
  | .sub c => c
  | .mul c => c
  | .div c => c
  | .mod c => c
  | .and c => c
  | .or c => c
  | .xor c => c
  | .not c => c
  | .signext c => c
  | .rol c => c
  | .ror c => c
  | .bswap c => c
  | .asr c => c
  | .lsl c => c
  | .lsr c => c
  | .setip c => c
  | .addip c => c
  | .intr c => c

/-- 1 where the input is an immediate word, else 0 (R86). -/
def InputMode.immCount : InputMode → Nat
  | .imm => 1
  | .zero => 0
  | .peek => 0
  | .pop => 0

/-- How many immediate words follow the instruction word (R86). -/
def Conf.immCount (c : Conf) : Nat := c.in0.immCount + c.in1.immCount

/-- The instruction's length in bytes: 2, 4 or 6 (R86). -/
def Conf.length (c : Conf) : Nat := 2 + 2 * c.immCount

/-- The first `n` words of a list of bytes, each little endian, and the bytes after them. -/
def takeWords : Nat → List Byte → Except DecodeError (List Word × List Byte)
  | 0, bs => .ok ([], bs)
  | n + 1, lo :: hi :: bs =>
    match takeWords n bs with
    | .ok (ws, rest) => .ok (wordOfBytes lo hi :: ws, rest)
    | .error e => .error e
  | _ + 1, _ => .error .truncated

/-- The instruction that a list of bytes begins with, with its immediate words, and the bytes after it. -/
def decode : List Byte → Except DecodeError (FullInstr × List Byte)
  | lo :: hi :: bs =>
    match decodeWord (wordOfBytes lo hi) with
    | .error e => .error e
    | .ok i =>
      match takeWords i.conf.immCount bs with
      | .ok (ws, rest) => .ok (⟨i, ws⟩, rest)
      | .error e => .error e
  | _ => .error .truncated

/-- Six bytes, the longest instruction, that hold the low `nbits` bits of `w`: byte `k` is bits
`8k + 7 .. 8k`, the first at the lowest address; the bits above `nbits` are 0. -/
def tableBytes (nbits w : Nat) : List Byte :=
  (List.range 6).map fun k => BitVec.ofNat 8 ((w % 2 ^ nbits) / 2 ^ (8 * k))

/-- What the decoder reads from an instruction whose bits are `w`. -/
def decodeTableWord (nbits w : Nat) : Option Instr :=
  match decode (tableBytes nbits w) with
  | .ok (f, _) => some f.instr
  | .error _ => none

/-! ### The encoder -/

/-- R82. -/
def Cond.code : Cond → BitVec 3
  | .always => 0
  | .zero => 1
  | .nonzero => 2
  | .greater => 3
  | .less => 4
  | .gequal => 5
  | .lequal => 6
  | .ovfl => 7

/-- R83. -/
def InputMode.code : InputMode → BitVec 2
  | .zero => 0
  | .imm => 1
  | .peek => 2
  | .pop => 3

/-- R84. -/
def FlagMode.code : FlagMode → BitVec 1
  | .no => 0
  | .yes => 1

/-- R85. -/
def OutputMode.code : OutputMode → BitVec 1
  | .discard => 0
  | .push => 1

/-- R95: the command field of each instruction. -/
def Instr.command : Instr → BitVec 6
  | .copy _ => 0
  | .get _ => 2
  | .set _ => 3
  | .store8 _ => 4
  | .store16 _ => 5
  | .load8 _ => 6
  | .load16 _ => 7
  | .cpuid _ => 8
  | .halt _ => 9
  | .frget _ => 10
  | .frset _ => 11
  | .bpget _ => 12
  | .bpset _ => 13
  | .spget _ => 14
  | .spset _ => 15
  | .add _ => 16
  | .sub _ => 17
  | .mul _ => 18
  | .div _ => 19
  | .mod _ => 20
  | .and _ => 21
  | .or _ => 22
  | .xor _ => 23
  | .not _ => 24
  | .signext _ => 25
  | .rol _ => 26
  | .ror _ => 27
  | .bswap _ => 28
  | .asr _ => 29
  | .lsl _ => 30
  | .lsr _ => 31
  | .setip _ => 32
  | .addip _ => 33
  | .intr _ => 34

/-- R81, most significant bit first: `0 cccccc o f bb aa eee`. -/
def encodeFields (cmd : BitVec 6) (c : Conf) : Word :=
  (0#1 ++ cmd ++ c.out.code ++ c.flag.code ++ c.in1.code ++ c.in0.code ++ c.cond.code : BitVec 16)

/-- The instruction word of an instruction. -/
def encodeWord (i : Instr) : Word := encodeFields i.command i.conf

/-- The two bytes of a word as memory holds them (`20_memory.md` R51). -/
def bytesOfWord (w : Word) : List Byte := [loByte w, hiByte w]

/-- The bytes of an instruction with its immediates: the instruction word, then input 0's immediate, then input 1's
(R87). -/
def encode (f : FullInstr) : List Byte :=
  bytesOfWord (encodeWord f.instr) ++ f.imms.flatMap bytesOfWord

end Sys2Proof
end

