-- ==== Sys2Proof/Config.lean ====
section
/-! DEFINITION. What an implementation or a platform fixes (`00_scope.md` R6), and the machine's free values (R9). -/

namespace Sys2Proof

/-- `VARIANT` (R2, R6): the full SPU Mark II, or the SPU Mark II-L without interrupts. -/
inductive Variant where
  | II | L
deriving DecidableEq, Repr

/-- `DIV_ROUND` (R6, R166; the spec's decision D6 is truncate). -/
inductive DivRound where
  | truncate | floor
deriving DecidableEq, Repr

/-- `MUL_CARRY` (R6, R163; the spec's decision D8 is unsigned, and names the other two). -/
inductive MulCarry where
  | unsigned | signedBits | signedFit
deriving DecidableEq, Repr

/-- The width of an access: 1 or 2 bytes (`20_memory.md` R54). -/
inductive Width where
  | byte | word
deriving DecidableEq, Repr

/-- The kind of an access (`20_memory.md` R57). -/
inductive AccessKind where
  | code | data
deriving DecidableEq, Repr

/-- One rule of the predicate `BusFault(addr, n, kind)` (R6): the platform answers with the `BUS` pin an access
of this width and kind at an address from `first` to `last`. A list of rules says any such predicate (log entry 9). -/
structure BusRule where
  first : Word
  last  : Word
  width : Width
  kind  : AccessKind
deriving DecidableEq, Repr

/-- A range of addresses that the platform maps to a device (`20_memory.md` R60; log entry 10). -/
structure DeviceRange where
  first : Word
  last  : Word
deriving DecidableEq, Repr

/-- The parameters of the machine (R6). No step changes them. -/
structure Config where
  variant  : Variant
  divRound : DivRound
  mulCarry : MulCarry
  busRules : List BusRule
  devices  : List DeviceRange
deriving DecidableEq, Repr

/-- The spec's defaults (R6): the named decisions, no bus faults, no devices. -/
def Config.default (v : Variant) : Config :=
  { variant := v, divRound := .truncate, mulCarry := .unsigned, busRules := [], devices := [] }

/-- The free values `any_u16()` (R9, R13): the `n`-th draw of a run is a word about which nothing is known.
It has no body, so no proof can rest on its value (log entry 4). -/
opaque Config.freeWord : Nat → Word

end Sys2Proof
end

