-- ==== Sys2Proof/Machine/State.lean ====
section
/-! DEFINITION. The machine's state as plain data (`10_state.md`), why it can stop, and the machine at power-on. -/

namespace Sys2Proof.Machine

/-- Why the machine stops with a fault: the spec's `fault(reason)` (`00_scope.md` R10), undefined behaviour of the source
or a situation to which the spec gives no meaning. All are safe: the model stops where hardware may do anything. -/
inductive Fault where
  /-- A 16-bit access at an odd address (R53, U3). Raised by every 16-bit access. Safe. -/
  | misaligned
  /-- Bit 15 of the instruction word is 1 (R97, U2). Raised by the fetch. Safe. -/
  | reservedBit15
  /-- The command is 1 or 35 to 63 (R96, U1). Raised by the fetch. Safe. -/
  | reservedCommand
  /-- `CPUID` with an input that is not zero (R150, U8). Raised by `CPUID`. Safe. -/
  | cpuidNonzeroInput
  /-- A pointer would become odd (R21 to R23, U5). Raised by `SPSET`, `BPSET`, `SETIP`, `ADDIP`, the reset sequence and
  interrupt entry. Safe. -/
  | oddPointer
  /-- A reserved bit of `FR` would become 1 (R28, U6). Raised by `FRSET`, `SETIP`, `ADDIP`. Safe. -/
  | frReserved
  /-- A reserved bit of `IR` would become 1 (R31, U7). Raised by `INTR`. Safe. -/
  | irReserved
  /-- `INTR` on variant L, which has no `IR` (R187, U17). Raised by `INTR`. Safe. -/
  | intrWithoutIr
  /-- The `BUS` pin during the reset sequence or an interrupt entry (R211, U15). Raised there. Safe. -/
  | busErrorDuringEntry
deriving DecidableEq, Repr

/-- Why an instruction has no meaning. -/
inductive Refusal where
  /-- The instruction has no meaning yet. No arm answers with it. Safe. -/
  | notModelled (mnemonic : String)
  /-- An access to an address that the platform maps to a device, whose behaviour the spec does not give
  (R60; log entry 10). Raised by every access. Safe. -/
  | deviceAccess
deriving DecidableEq, Repr

/-- How a part of a step ends: with a value, with the `BUS` pin's answer to an access (R211), or by stopping. -/
inductive Result (α : Type) where
  | ok (a : α)
  | bus
  | fault (f : Fault)
  | refused (r : Refusal)
deriving DecidableEq, Repr

/-- The pins of one instruction boundary, `ExtEvents` (`60_exceptions.md` R201). -/
structure Pins where
  rst : Bool
  nmi : Bool
  irq : Bool
deriving DecidableEq, Repr

/-- No pin is signalled. -/
def Pins.quiet : Pins := { rst := false, nmi := false, irq := false }

/-- The memory (`10_state.md` R34): the bytes that differ from what an unlisted address reads as, addresses strictly
rising (`Memory.wf` in Ops.lean). -/
abbrev Memory := List Host.Cell

/-- The state of the machine (`10_state.md` R20 to R38). -/
structure State where
  /-- Stack pointer (R21). -/
  sp : Word
  /-- Base pointer (R22). -/
  bp : Word
  /-- Instruction pointer (R23). -/
  ip : Word
  /-- Flag register (R24 to R28). -/
  fr : Word
  /-- Interrupt register (R29 to R31); on variant L there is none, and the field holds 0 (log entry 15). -/
  ir : Word
  /-- The halted bit (R32). -/
  halted : Bool
  /-- The 64 KiB memory (R34). -/
  mem : Memory
  /-- MODEL: the parameters of the machine (`00_scope.md` R6). -/
  cfg : Config
  /-- MODEL: the pins at the coming boundaries, the next boundary's first; past its end no pin is signalled
  (log entry 8). -/
  ext : List Pins
  /-- MODEL: how many free values have been drawn (log entry 4). -/
  draws : Nat
deriving DecidableEq, Repr

/-- Power-on of variant II (R251): `FR` is 0, `IR` is 1, not halted; `SP`, `BP`, `IP` and the memory are what the
caller gives (`PowerOn`, `MemInit`, R6). -/
def State.powerOn (cfg : Config) (sp bp ip : Word) (mem : Memory) (ext : List Pins) : State :=
  { sp := sp, bp := bp, ip := ip, fr := 0x0000, ir := 0x0001, halted := false, mem := mem, cfg := cfg, ext := ext
    draws := 0 }

/-- Power-on of variant L (R252): no `IR`, and the platform presents `RST` at the first boundary. -/
def State.powerOnL (cfg : Config) (sp bp ip : Word) (mem : Memory) (ext : List Pins) : State :=
  { sp := sp, bp := bp, ip := ip, fr := 0x0000, ir := 0x0000, halted := false, mem := mem, cfg := cfg
    ext := { Pins.quiet with rst := true } :: ext, draws := 0 }

/-- The machine at power-on (R37, R251): variant II with the spec's defaults, memory with nothing listed. The spec leaves
`SP`, `BP`, `IP` undefined; DESIGN CHOICE: zero (log entry 1). -/
def State.reset : State := State.powerOn (Config.default .II) 0x0000 0x0000 0x0000 [] []

/-! One update per field; every write of a register goes through them. -/

def State.setSP (s : State) (v : Word) : State := { s with sp := v }
def State.setBP (s : State) (v : Word) : State := { s with bp := v }
def State.setIP (s : State) (v : Word) : State := { s with ip := v }
def State.setFR (s : State) (v : Word) : State := { s with fr := v }
def State.setIR (s : State) (v : Word) : State := { s with ir := v }
def State.setHalted (s : State) (b : Bool) : State := { s with halted := b }
def State.setMem (s : State) (m : Memory) : State := { s with mem := m }
def State.setExt (s : State) (e : List Pins) : State := { s with ext := e }
def State.setDraws (s : State) (n : Nat) : State := { s with draws := n }

end Sys2Proof.Machine
end

