-- ==== Sys2Proof/Machine/Flags.lean ====
section
/-! DEFINITION. The bits of `FR` (`10_state.md` R24 to R28) and every flag computation (`40_execution_model.md` R121,
`43_arithmetic.md` R160 to R163). -/

namespace Sys2Proof.Machine

/-! ### The bits of the flag register (R24) -/

def flagZ (fr : Word) : Bool := fr.getLsbD 0
def flagN (fr : Word) : Bool := fr.getLsbD 1
def flagC (fr : Word) : Bool := fr.getLsbD 2
def flagCE (fr : Word) : Bool := fr.getLsbD 3

/-- Whether the maskable interrupt `n`, for `n` in 4 to 7, is enabled (R27). -/
def interruptEnabled (n : Nat) (fr : Word) : Bool := fr.getLsbD n

/-- The word with bit `n` set. -/
def bitMask (n : Nat) : Word := 1#16 <<< n

/-- `v[n] <- b`. -/
def putBit (v : Word) (n : Nat) (b : Bool) : Word := if b then v ||| bitMask n else v &&& ~~~ bitMask n

/-- `FR_RESERVED`: the bits of `FR` that must be 0 (R28). -/
def frReservedMask : Variant → Word
  | .II => 0xFF00
  | .L => 0xFFF0

/-- The write of a new value to the whole of `FR`, stopped where it would set a reserved bit (R28). -/
def writeFR (v : Word) (s : State) : Result State :=
  if v &&& frReservedMask s.cfg.variant = 0 then .ok (s.setFR v) else .fault .frReserved

/-! ### Z and N (R121) -/

/-- `FR` with `Z` and `N` taken from an output. -/
def frWithZN (fr out : Word) : Word := putBit (putBit fr 0 (out == 0)) 1 (out.getLsbD 15)

/-- The flag modification stage, the last of an instruction (R121). -/
def modifyFlags : FlagMode → Word → State → State
  | .no, _, s => s
  | .yes, out, s => s.setFR (frWithZN s.fr out)

/-! ### C (R160 to R163) -/

/-- `FR.C <- b`; `CE` does not gate it (R160). -/
def writeC (b : Bool) (s : State) : State := s.setFR (putBit s.fr 2 b)

/-- The carry-in of `ADD` and `SUB`: `FR.C & FR.CE` (R160). -/
def carryIn (fr : Word) : Bool := flagC fr && flagCE fr

/-- The 17-bit sum of `ADD` (R161). -/
def sum17 (a b : Word) (cin : Bool) : BitVec 17 := a.setWidth 17 + b.setWidth 17 + (BitVec.ofBool cin).setWidth 17

/-- The difference of `SUB` modulo 2^17 (R162). -/
def diff17 (a b : Word) (cin : Bool) : BitVec 17 := a.setWidth 17 - b.setWidth 17 - (BitVec.ofBool cin).setWidth 17

/-- The exact 32-bit product of the zero-extended operands (R163). -/
def product32 (a b : Word) : BitVec 32 := a.setWidth 32 * b.setWidth 32

/-- The exact 32-bit product of the sign-extended operands (D8). -/
def signedProduct32 (a b : Word) : BitVec 32 := a.signExtend 32 * b.signExtend 32

/-- The carry of `MUL` (R163 with the parameter `MUL_CARRY`, whose three readings are in D8). -/
def mulCarryOut : MulCarry → Word → Word → Bool
  | .unsigned, a, b => (product32 a b).extractLsb' 16 16 != 0
  | .signedBits, a, b => (signedProduct32 a b).extractLsb' 16 16 != 0
  | .signedFit, a, b => decide (a.toInt * b.toInt < -32768 ∨ 32767 < a.toInt * b.toInt)

end Sys2Proof.Machine
end

