-- ==== Sys2Proof/Machine/Ops.lean ====
section
/-! DEFINITION. The named operations over memory, registers and free values; taking an interrupt, the return from one,
and the reset sequence; the instruction boundary; the instruction fetch. -/

namespace Sys2Proof.Machine

/-! ### Sequencing -/

/-- Go on with the value, or end as the first part ended. -/
def Result.bind {α β : Type} (r : Result α) (f : α → Result β) : Result β :=
  match r with
  | .ok a => f a
  | .bus => .bus
  | .fault e => .fault e
  | .refused e => .refused e

/-- An access of the reset sequence or of an interrupt entry: `BUS` has no handling there (R211, U15). -/
def Result.duringEntry {α : Type} (r : Result α) : Result α :=
  match r with
  | .ok a => .ok a
  | .bus => .fault .busErrorDuringEntry
  | .fault e => .fault e
  | .refused e => .refused e

/-! ### Memory (`20_memory.md`) -/

/-- What an address that the memory does not list reads as: DESIGN CHOICE, the spec leaves unloaded bytes
unspecified (U14; log entry 7). -/
def unlistedByte : Byte := 0x00

/-- The byte at an address. -/
def Memory.read : Memory → Nat → Byte
  | [], _ => unlistedByte
  | (k, v) :: m, a => if k = a then v else Memory.read m a

/-- The memory with one byte replaced, in canonical form. -/
def Memory.write : Memory → Nat → Byte → Memory
  | [], a, b => if b = unlistedByte then [] else [(a, b)]
  | (k, v) :: m, a, b =>
    if k < a then (k, v) :: Memory.write m a b
    else if k = a then (if b = unlistedByte then m else (a, b) :: m)
    else if b = unlistedByte then (k, v) :: m else (a, b) :: (k, v) :: m

/-- All addresses of the memory lie above `lo` and rise strictly, below 2^16, and no entry is what an unlisted address
reads as. -/
def Memory.wfAbove : Option Nat → Memory → Bool
  | _, [] => true
  | lo, (k, v) :: m => decide (∀ l ∈ lo, l < k) && decide (k < 65536) && v != unlistedByte && Memory.wfAbove (some k) m

/-- The canonical form of a memory. -/
def Memory.wf (m : Memory) : Bool := Memory.wfAbove none m

/-- `MEM8[a]`. -/
def Memory.readByte (m : Memory) (a : Word) : Byte := m.read a.toNat

/-- `MEM16[a]` for an even `a`: little endian (R51). -/
def Memory.readWord (m : Memory) (a : Word) : Word := wordOfBytes (m.read a.toNat) (m.read (a + 1).toNat)

/-- `MEM8[a] <- v`. -/
def Memory.writeByte (m : Memory) (a : Word) (v : Byte) : Memory := m.write a.toNat v

/-- `MEM16[a] <- v` for an even `a`: the low byte first (R51, R56). -/
def Memory.writeWord (m : Memory) (a v : Word) : Memory := (m.write a.toNat (loByte v)).write (a + 1).toNat (hiByte v)

/-- `BusFault(addr, n, kind)` (R6, R55): never on variant L, where the `BUS` pin has no effect (R219; log entry 9). -/
def busFault (cfg : Config) (a : Word) (w : Width) (k : AccessKind) : Bool :=
  decide (cfg.variant = .II) &&
    cfg.busRules.any fun r => decide (r.first ≤ a) && decide (a ≤ r.last) && decide (r.width = w) && decide (r.kind = k)

/-- `Device(addr)` (R60). -/
def isDevice (cfg : Config) (a : Word) : Bool :=
  cfg.devices.any fun r => decide (r.first ≤ a) && decide (a ≤ r.last)

/-- Whether one of the bytes of an access belongs to a device. -/
def touchesDevice (cfg : Config) (a : Word) : Width → Bool
  | .byte => isDevice cfg a
  | .word => isDevice cfg a || isDevice cfg (a + 1)

/-- Whether an access reaches plain memory: the checks of `MemRead` and `MemWrite`, in their order (R53, R55, R56, R60). -/
def access (cfg : Config) (a : Word) (w : Width) (k : AccessKind) : Result Unit :=
  if w = .word ∧ a.getLsbD 0 = true then .fault .misaligned
  else if busFault cfg a w k then .bus
  else if touchesDevice cfg a w then .refused .deviceAccess
  else .ok ()

/-- `MemRead(a, 1, data)` (R55); only `LOAD8` reads a byte. -/
def memRead8 (a : Word) (s : State) : Result Byte :=
  (access s.cfg a .byte .data).bind fun _ => .ok (s.mem.readByte a)

/-- `MemRead(a, 2, kind)` (R55). -/
def memRead16 (k : AccessKind) (a : Word) (s : State) : Result Word :=
  (access s.cfg a .word k).bind fun _ => .ok (s.mem.readWord a)

/-- `MemWrite(a, 1, v)` (R56). -/
def memWrite8 (a : Word) (v : Byte) (s : State) : Result State :=
  (access s.cfg a .byte .data).bind fun _ => .ok (s.setMem (s.mem.writeByte a v))

/-- `MemWrite(a, 2, v)` (R56). -/
def memWrite16 (a v : Word) (s : State) : Result State :=
  (access s.cfg a .word .data).bind fun _ => .ok (s.setMem (s.mem.writeWord a v))

/-! ### Stack (`40_execution_model.md` R118, R119) -/

/-- `push(v)`: `SP` goes down by two, then the store at the new `SP` (R119). -/
def push (v : Word) (s : State) : Result State := memWrite16 (s.sp - 2) v (s.setSP (s.sp - 2))

/-- `peek()` (R118). -/
def peek (s : State) : Result Word := memRead16 .data s.sp s

/-- `pop()`: the stack top, then `SP` goes up by two (R118). -/
def pop (s : State) : Result (Word × State) := (peek s).bind fun t => .ok (t, s.setSP (s.sp + 2))

/-! ### Registers and free values -/

/-- A value for `SP`, `BP` or `IP`: bit 0 is reserved and must be zero (R21 to R23, D10). -/
def evenPointer (v : Word) : Result Word := if v.getLsbD 0 then .fault .oddPointer else .ok v

/-- `any_u16()` (R13): the next free value. -/
def draw (s : State) : Word × State := (Config.freeWord s.draws, s.setDraws (s.draws + 1))

/-- `raise` interrupt `n`: set its pending bit; control moves at the next boundary (R13). -/
def raise (n : Nat) (s : State) : State := s.setIR (s.ir ||| bitMask n)

/-! ### Taking an interrupt and returning from one (`60_exceptions.md` R205, R207) -/

/-- The enable bit of a taken maskable interrupt is cleared (R205). -/
def disableTaken (n : Nat) (s : State) : State := if 4 ≤ n then s.setFR (putBit s.fr n false) else s

/-- Entry into interrupt `n` (R205): push `1 << n`, push `IP`, load `IP` from the table entry at `2 * n`, disable a maskable
interrupt, end a halt (R217). An odd table entry stops (R204). -/
def enterInterrupt (n : Nat) (s : State) : Result State :=
  (push (bitMask n) s).bind fun s1 =>
  (push s1.ip s1).bind fun s2 =>
  (memRead16 .code (BitVec.ofNat 16 (2 * n)) s2).bind fun h =>
  (evenPointer h).bind fun h =>
  .ok ((disableTaken n (s2.setIP h)).setHalted false)

/-- Whether interrupt `n` is taken when pending (R203, R205). -/
def isTaken (n : Nat) (fr : Word) : Bool := decide (n < 4) || interruptEnabled n fr

/-- One pass of the interrupt loop: the pending bit is cleared whether the interrupt is taken or dropped (R205). -/
def serveInterrupt (n : Nat) (s : State) : Result State :=
  if isTaken n s.fr then enterInterrupt n (s.setIR (putBit s.ir n false)) else .ok (s.setIR (putBit s.ir n false))

/-- The highest set bit of `w` below bit `n`; 0 where there is none. -/
def highestSetBitBelow : Nat → Word → Nat
  | 0, _ => 0
  | n + 1, w => if w.getLsbD n then n else highestSetBitBelow n w

/-- `indexOfHighestSetBit` (R113). -/
def highestSetBit (w : Word) : Nat := highestSetBitBelow 16 w

/-- `while IR != 0` with at most `k` passes (R205). -/
def interruptLoop : Nat → State → Result State
  | 0, s => .ok s
  | k + 1, s => if s.ir = 0 then .ok s else (serveInterrupt (highestSetBit s.ir) s).bind (interruptLoop k)

/-- The interrupt phase (R205, R206). Each pass clears one of 16 bits, so 16 passes are the whole loop
(log entry 19). -/
def interruptPhase (s : State) : Result State := interruptLoop 16 s

/-- The jump shared by `SETIP` and `ADDIP` (R185, R186), and so the return from an interrupt (R207): `IP` takes an even target,
the bits of `frBits` are set in `FR`. -/
def jumpAndSetFlags (target frBits : Word) (s : State) : Result State :=
  (evenPointer target).bind fun t => (writeFR (s.fr ||| frBits) s).bind fun s1 => .ok (s1.setIP t)

/-! ### Reset (`70_reset_and_hazards.md` R250, R252) -/

/-- `SP` and `BP` are undefined after a reset: two free values (R37, D22; log entry 6). -/
def redrawPointers (s : State) : State :=
  let (v, s1) := draw s
  let (w, s2) := draw (s1.setSP v)
  s2.setBP w

/-- The reset sequence of variant II (R250). -/
def resetII (s : State) : Result State :=
  (memRead16 .code 0x0000 s).bind fun v =>
  (evenPointer v).bind fun v =>
  .ok (redrawPointers ((((s.setIP v).setFR 0x0000).setIR 0x0000).setHalted false))

/-- The reset of variant L (R252). -/
def resetL (s : State) : State := redrawPointers (((s.setIP 0x0000).setFR 0x0000).setHalted false)

/-! ### The instruction boundary (`40_execution_model.md` R110, R111) -/

/-- `PinBits(ext)` (R201). -/
def pinBits (p : Pins) : Word := putBit (putBit (putBit 0 0 p.rst) 1 p.nmi) 7 p.irq

/-- The pins of this boundary: the head of the list, or none signalled. -/
def currentPins (s : State) : Pins := s.ext.headD Pins.quiet

/-- What variant II does before the instruction: the reset test, then the interrupt phase (R110). -/
def boundaryII (s : State) : Result State :=
  let s1 := (s.setIR (s.ir ||| pinBits (currentPins s))).setExt s.ext.tail
  ((if s1.ir.getLsbD 0 then resetII s1 else .ok s1).bind interruptPhase).duringEntry

/-- What variant L does before the instruction: the reset test on the pin (R111). -/
def boundaryL (s : State) : State :=
  let s1 := s.setExt s.ext.tail
  if (currentPins s).rst then resetL s1 else s1

/-- Everything of a step before the instruction. -/
def boundary (s : State) : Result State :=
  match s.cfg.variant with
  | .II => boundaryII s
  | .L => .ok (boundaryL s)

/-! ### The instruction fetch and the end of the instruction part -/

/-- Fetch and decode the instruction word at `IP` (R112); a reserved word stops whatever its condition (R96, R97). -/
def fetchInstr (s : State) : Result Instr :=
  (memRead16 .code s.ip s).bind fun w =>
  match decodeWord w with
  | .ok i => .ok i
  | .error .reservedBit15 => .fault .reservedBit15
  | .error .reservedCommand => .fault .reservedCommand
  | .error .truncated => .fault .reservedCommand

/-- The end of the instruction part that began in state `s`: a bus fault undoes all of it and makes interrupt 2 pending
(R211). -/
def finishFrom (s : State) (r : Result State) : Host.Outcome State Fault Refusal :=
  match r with
  | .ok t => .next t
  | .bus => .next (raise 2 s)
  | .fault f => .fault f
  | .refused e => .refused e

end Sys2Proof.Machine
end

