-- ==== Sys2Proof/Machine/Operands.lean ====
section
/-! DEFINITION. The wrapper that every command shares (`40_execution_model.md` R112 to R122): condition, inputs, output, flags. -/

namespace Sys2Proof.Machine

/-- `isExecuted(cond, FR)` (R82, R114). -/
def isExecuted (c : Cond) (fr : Word) : Bool :=
  match c with
  | .always => true
  | .zero => flagZ fr
  | .nonzero => !flagZ fr
  | .greater => !flagZ fr && !flagN fr
  | .less => flagN fr
  | .gequal => flagZ fr || !flagN fr
  | .lequal => flagZ fr || flagN fr
  | .ovfl => flagC fr

/-- `fetchInput(m)` (R118). -/
def fetchInput (m : InputMode) (s : State) : Result (Word × State) :=
  match m with
  | .zero => .ok (0x0000, s)
  | .imm => (memRead16 .code s.ip s).bind fun t => .ok (t, s.setIP (s.ip + 2))
  | .peek => (peek s).bind fun t => .ok (t, s)
  | .pop => pop s

/-- Both inputs, input 0 first; obtained whether or not the command uses them (R116, R117). -/
def fetchInputs (c : Conf) (s : State) : Result (Word × Word × State) :=
  (fetchInput c.in0 s).bind fun p => (fetchInput c.in1 p.2).bind fun q => .ok (p.1, q.1, q.2)

/-- The output stage (R120). -/
def emitOutput (m : OutputMode) (out : Word) (s : State) : Result State :=
  match m with
  | .discard => .ok s
  | .push => push out s

/-- A command: from its two inputs, its output and the state it leaves (R117). -/
abbrev Command := Word → Word → State → Result (Word × State)

/-- The stages of an executed instruction after the fetch of its word, in their order (R112, R116). -/
def runStages (c : Conf) (cmd : Command) (s : State) : Result State :=
  (fetchInputs c s).bind fun inp =>
  (cmd inp.1 inp.2.1 inp.2.2).bind fun res =>
  (emitOutput c.out res.1 res.2).bind fun t =>
  .ok (modifyFlags c.flag res.1 t)

/-- A not-executed instruction only moves `IP` past its immediates, which are not read (R115). -/
def skipImmediates (c : Conf) (s : State) : State := s.setIP (s.ip + BitVec.ofNat 16 (2 * c.immCount))

/-- The instruction part for an instruction whose word has been fetched from `IP` (R112). -/
def runCommand (c : Conf) (cmd : Command) (s : State) : Host.Outcome State Fault Refusal :=
  if isExecuted c.cond s.fr then finishFrom s (runStages c cmd (s.setIP (s.ip + 2)))
  else .next (skipImmediates c (s.setIP (s.ip + 2)))

/-- A command that computes its output from its inputs alone. -/
def pureCommand (f : Word → Word → Word) : Command := fun a b s => .ok (f a b, s)

end Sys2Proof.Machine
end

