-- ==== Sys2Proof/Machine/Arithmetic.lean ====
section
/-! DEFINITION. Arithmetic: `ADD`, `SUB`, `MUL`, `DIV`, `MOD` (`43_arithmetic.md`). -/

namespace Sys2Proof.Machine

/-- The exact quotient of two signed numbers, rounded as `DIV_ROUND` says (R166). -/
def quotient : DivRound → Int → Int → Int
  | .truncate, a, b => a.tdiv b
  | .floor, a, b => a.fdiv b

/-- `raise ARITH`: interrupt 4 becomes pending; on variant L nothing is raised (R164, R212, R219). -/
def raiseArith (s : State) : State :=
  match s.cfg.variant with
  | .II => raise 4 s
  | .L => s

/-- The output of `DIV` for a divisor that is not zero: the low 16 bits of the quotient (R164, R166). -/
def divOutput (r : DivRound) (a b : Word) : Word := BitVec.ofInt 16 (quotient r a.toInt b.toInt)

/-- The output of `MOD` for a divisor that is not zero (R165, R166). -/
def modOutput (r : DivRound) (a b : Word) : Word := BitVec.ofInt 16 (a.toInt - quotient r a.toInt b.toInt * b.toInt)

def addCommand : Command := fun a b s =>
  let t := sum17 a b (carryIn s.fr)
  .ok (t.setWidth 16, writeC (t.getLsbD 16) s)

def subCommand : Command := fun a b s =>
  let t := diff17 a b (carryIn s.fr)
  .ok (t.setWidth 16, writeC (t.getLsbD 16) s)

def mulCommand : Command := fun a b s => .ok ((product32 a b).setWidth 16, writeC (mulCarryOut s.cfg.mulCarry a b) s)

def divCommand : Command := fun a b s =>
  if b = 0 then .ok (draw (raiseArith s)) else .ok (divOutput s.cfg.divRound a b, s)

def modCommand : Command := fun a b s =>
  if b = 0 then .ok (draw (raiseArith s)) else .ok (modOutput s.cfg.divRound a b, s)

/-- `ADD` (R161): `C` is bit 16 of the 17-bit sum. -/
def execAdd (c : Conf) (s : State) : Host.Outcome State Fault Refusal := runCommand c addCommand s

/-- `SUB` (R162): `C` is the borrow. -/
def execSub (c : Conf) (s : State) : Host.Outcome State Fault Refusal := runCommand c subCommand s

/-- `MUL` (R163). -/
def execMul (c : Conf) (s : State) : Host.Outcome State Fault Refusal := runCommand c mulCommand s

/-- `DIV` (R164): by zero it raises `ARITH` and completes with a free output (log entry 5). -/
def execDiv (c : Conf) (s : State) : Host.Outcome State Fault Refusal := runCommand c divCommand s

/-- `MOD` (R165): by zero as `DIV`. -/
def execMod (c : Conf) (s : State) : Host.Outcome State Fault Refusal := runCommand c modCommand s

end Sys2Proof.Machine
end

