-- ==== Sys2Proof/Machine/Control.lean ====
section
/-! DEFINITION. Control: `SETIP`, `ADDIP`, `INTR` (`45_control.md`). `IP` at the command is the address of the next sequential
instruction (`40_execution_model.md` R122). -/

namespace Sys2Proof.Machine

/-- The bits of `IR` that `INTR` must not set: bit 3 and bits 15 to 8 (R31). -/
def irReservedMask : Word := 0xFF08

def setipCommand : Command := fun a b s => (jumpAndSetFlags a b s).bind fun t => .ok (s.ip, t)

def addipCommand : Command := fun a b s => (jumpAndSetFlags (s.ip + a) b s).bind fun t => .ok (s.ip, t)

def intrCommand : Command := fun a _ s =>
  match s.cfg.variant with
  | .L => .fault .intrWithoutIr
  | .II => if a &&& irReservedMask = 0 then .ok (a, s.setIR (s.ir ||| a)) else .fault .irReserved

/-- `SETIP` (R185): the jump, the call and, with both inputs popped, the return from an interrupt (R207). -/
def execSetip (c : Conf) (s : State) : Host.Outcome State Fault Refusal := runCommand c setipCommand s

/-- `ADDIP` (R186): the offset counts bytes (D3). -/
def execAddip (c : Conf) (s : State) : Host.Outcome State Fault Refusal := runCommand c addipCommand s

/-- `INTR` (R187): pending bits set by software; on variant L there is no `IR` to write. -/
def execIntr (c : Conf) (s : State) : Host.Outcome State Fault Refusal := runCommand c intrCommand s

end Sys2Proof.Machine
end

