-- ==== Sys2Proof/Machine/DataMovement.lean ====
section
/-! DEFINITION. Data movement: `COPY`, `GET`, `SET`, `STORE8`, `STORE16`, `LOAD8`, `LOAD16` (`41_data_movement.md`). -/

namespace Sys2Proof.Machine

/-- `BP + 2 * input0`, modulo 2^16 (R141, R142). -/
def frameAddress (index : Word) (s : State) : Word := s.bp + 2 * index

def copyCommand : Command := pureCommand fun a _ => a

def getCommand : Command := fun a _ s => (memRead16 .data (frameAddress a s) s).bind fun v => .ok (v, s)

def setCommand : Command := fun a b s => (memWrite16 (frameAddress a s) b s).bind fun t => .ok (b, t)

def store8Command : Command := fun a b s => (memWrite8 b (loByte a) s).bind fun t => .ok (a &&& 0x00FF, t)

def store16Command : Command := fun a b s => (memWrite16 b a s).bind fun t => .ok (a, t)

def load8Command : Command := fun a _ s => (memRead8 a s).bind fun v => .ok (v.setWidth 16, s)

def load16Command : Command := fun a _ s => (memRead16 .data a s).bind fun v => .ok (v, s)

/-- `COPY` (R140). -/
def execCopy (c : Conf) (s : State) : Host.Outcome State Fault Refusal := runCommand c copyCommand s

/-- `GET` (R141). -/
def execGet (c : Conf) (s : State) : Host.Outcome State Fault Refusal := runCommand c getCommand s

/-- `SET` (R142): the index is input 0, the value input 1. -/
def execSet (c : Conf) (s : State) : Host.Outcome State Fault Refusal := runCommand c setCommand s

/-- `STORE8` (R143): the value is input 0, the address input 1. -/
def execStore8 (c : Conf) (s : State) : Host.Outcome State Fault Refusal := runCommand c store8Command s

/-- `STORE16` (R144): the value is input 0, the address input 1. -/
def execStore16 (c : Conf) (s : State) : Host.Outcome State Fault Refusal := runCommand c store16Command s

/-- `LOAD8` (R145): zero-extended (D4). -/
def execLoad8 (c : Conf) (s : State) : Host.Outcome State Fault Refusal := runCommand c load8Command s

/-- `LOAD16` (R146). -/
def execLoad16 (c : Conf) (s : State) : Host.Outcome State Fault Refusal := runCommand c load16Command s

end Sys2Proof.Machine
end

