-- ==== Sys2Proof/Machine/Logic.lean ====
section
/-! DEFINITION. Logic, extension, rotates and shifts (`44_logic_shift.md`): pure functions of the inputs that never write
`C` (R169). -/

namespace Sys2Proof.Machine

/-- `SIGNEXT` (R174): bit 7 of the low byte is copied upwards. -/
def signExtendByte (a : Word) : Word := if a.getLsbD 7 then 0xFF00 ||| a else a &&& 0x00FF

/-- `concat(input0[14:0], input0[15])` (R175). -/
def rotateLeftOne (a : Word) : Word := (bits a 0 15 ++ bits a 15 1 : BitVec 16)

/-- `concat(input0[0], input0[15:1])` (R176). -/
def rotateRightOne (a : Word) : Word := (bits a 0 1 ++ bits a 1 15 : BitVec 16)

/-- `concat(input0[7:0], input0[15:8])` (R177). -/
def swapBytes (a : Word) : Word := (bits a 0 8 ++ bits a 8 8 : BitVec 16)

/-- `concat(input0[15], input0[15:1])` (R178). -/
def shiftRightArith (a : Word) : Word := (bits a 15 1 ++ bits a 1 15 : BitVec 16)

/-- `concat(input0[14:0], 0)` (R179). -/
def shiftLeftOne (a : Word) : Word := (bits a 0 15 ++ 0#1 : BitVec 16)

/-- `concat(0, input0[15:1])` (R180). -/
def shiftRightLogic (a : Word) : Word := (0#1 ++ bits a 1 15 : BitVec 16)

/-- `AND` (R170). -/
def execAnd (c : Conf) (s : State) : Host.Outcome State Fault Refusal := runCommand c (pureCommand fun a b => a &&& b) s

/-- `OR` (R171). -/
def execOr (c : Conf) (s : State) : Host.Outcome State Fault Refusal := runCommand c (pureCommand fun a b => a ||| b) s

/-- `XOR` (R172). -/
def execXor (c : Conf) (s : State) : Host.Outcome State Fault Refusal := runCommand c (pureCommand fun a b => a ^^^ b) s

/-- `NOT` (R173). -/
def execNot (c : Conf) (s : State) : Host.Outcome State Fault Refusal := runCommand c (pureCommand fun a _ => ~~~ a) s

/-- `SIGNEXT` (R174). -/
def execSignext (c : Conf) (s : State) : Host.Outcome State Fault Refusal :=
  runCommand c (pureCommand fun a _ => signExtendByte a) s

/-- `ROL` (R175). -/
def execRol (c : Conf) (s : State) : Host.Outcome State Fault Refusal :=
  runCommand c (pureCommand fun a _ => rotateLeftOne a) s

/-- `ROR` (R176). -/
def execRor (c : Conf) (s : State) : Host.Outcome State Fault Refusal :=
  runCommand c (pureCommand fun a _ => rotateRightOne a) s

/-- `BSWAP` (R177). -/
def execBswap (c : Conf) (s : State) : Host.Outcome State Fault Refusal :=
  runCommand c (pureCommand fun a _ => swapBytes a) s

/-- `ASR` (R178). -/
def execAsr (c : Conf) (s : State) : Host.Outcome State Fault Refusal :=
  runCommand c (pureCommand fun a _ => shiftRightArith a) s

/-- `LSL` (R179). -/
def execLsl (c : Conf) (s : State) : Host.Outcome State Fault Refusal :=
  runCommand c (pureCommand fun a _ => shiftLeftOne a) s

/-- `LSR` (R180). -/
def execLsr (c : Conf) (s : State) : Host.Outcome State Fault Refusal :=
  runCommand c (pureCommand fun a _ => shiftRightLogic a) s

end Sys2Proof.Machine
end

