-- ==== Sys2Proof/Machine/System.lean ====
section
/-! DEFINITION. System and register commands: `CPUID`, `HALT`, `FRGET`, `FRSET`, `BPGET`, `BPSET`, `SPGET`, `SPSET`
(`42_system_registers.md`). -/

namespace Sys2Proof.Machine

def cpuidCommand : Command := fun a b s => if a = 0 ∧ b = 0 then .ok (0x0000, s) else .fault .cpuidNonzeroInput

def haltCommand : Command := fun _ _ s => .ok (draw (s.setHalted true))

def frgetCommand : Command := fun _ b s => .ok (s.fr &&& ~~~ b, s)

def frsetCommand : Command := fun a b s => (writeFR ((a &&& ~~~ b) ||| (s.fr &&& b)) s).bind fun t => .ok (s.fr, t)

def bpgetCommand : Command := fun _ _ s => .ok (s.bp, s)

def bpsetCommand : Command := fun a _ s => (evenPointer a).bind fun v => .ok (s.bp, s.setBP v)

def spgetCommand : Command := fun _ _ s => .ok (s.sp, s)

def spsetCommand : Command := fun a _ s => (evenPointer a).bind fun v => .ok (s.sp, s.setSP v)

/-- `CPUID` (R150): both inputs must be zero, and so is the output. -/
def execCpuid (c : Conf) (s : State) : Host.Outcome State Fault Refusal := runCommand c cpuidCommand s

/-- `HALT` (R151): completes with a free output; no instruction is fetched until an interrupt is taken or a reset
sequence runs (R126; log entry 5). -/
def execHalt (c : Conf) (s : State) : Host.Outcome State Fault Refusal := runCommand c haltCommand s

/-- `FRGET` (R152): input 1 is the mask of the bits to clear in the result. -/
def execFrget (c : Conf) (s : State) : Host.Outcome State Fault Refusal := runCommand c frgetCommand s

/-- `FRSET` (R153): input 1 is the mask of the bits to keep; the output is the old `FR`. -/
def execFrset (c : Conf) (s : State) : Host.Outcome State Fault Refusal := runCommand c frsetCommand s

/-- `BPGET` (R154). -/
def execBpget (c : Conf) (s : State) : Host.Outcome State Fault Refusal := runCommand c bpgetCommand s

/-- `BPSET` (R155): the output is the old `BP`. -/
def execBpset (c : Conf) (s : State) : Host.Outcome State Fault Refusal := runCommand c bpsetCommand s

/-- `SPGET` (R156): `SP` after the inputs were obtained (R122). -/
def execSpget (c : Conf) (s : State) : Host.Outcome State Fault Refusal := runCommand c spgetCommand s

/-- `SPSET` (R157): the output is the old `SP`, and a push uses the new one. -/
def execSpset (c : Conf) (s : State) : Host.Outcome State Fault Refusal := runCommand c spsetCommand s

end Sys2Proof.Machine
end

