-- ==== Sys2Proof/Machine/Cycle.lean ====
section
/-! DEFINITION. The fetch-execute cycle (`40_execution_model.md` R110 to R112): one instruction boundary and at most one
instruction; and where an instruction is placed so that the cycle runs it next. -/

namespace Sys2Proof.Machine

/-- The instruction part (`ExecuteOne`, R112): fetch, decode, execute. -/
def executeOne (s : State) : Host.Outcome State Fault Refusal :=
  match fetchInstr s with
  | .ok i => exec i s
  | .bus => .next (raise 2 s)
  | .fault f => .fault f
  | .refused e => .refused e

/-- What follows the boundary: nothing while halted (R126), else one instruction. -/
def afterBoundary (s : State) : Host.Outcome State Fault Refusal := if s.halted then .next s else executeOne s

/-- One step of either variant (R110, R111). A bus fault never leaves the boundary, which turns it into a fault. -/
def cycle (s : State) : Host.Outcome State Fault Refusal :=
  match boundary s with
  | .ok b => afterBoundary b
  | .bus => .fault .busErrorDuringEntry
  | .fault f => .fault f
  | .refused e => .refused e

/-- A memory with a list of bytes stored from an address upwards. -/
def storeBytes : List Byte → Word → Memory → Memory
  | [], _, m => m
  | b :: bs, a, m => storeBytes bs (a + 1) (m.writeByte a b)

/-- The state with an instruction's bits stored at `IP`, at a boundary where nothing stands before its fetch: no interrupt
or reset is pending, no pin is signalled at this boundary, the CPU is not halted, `IP` is even (log entry 12). -/
def placeWord (nbits w : Nat) (s : State) : State :=
  { s with
    ip := s.ip &&& 0xFFFE
    ir := 0x0000
    halted := false
    ext := match s.ext with
      | [] => []
      | _ :: later => Pins.quiet :: later
    mem := storeBytes (tableBytes nbits w) (s.ip &&& 0xFFFE) s.mem }

end Sys2Proof.Machine
end

