-- ==== Sys2Proof/WellFormed.lean ====
section
/-! DEFINITION. Which instructions are well formed: the instruction belongs to the variant (`00_scope.md` R2,
`45_control.md` R187), and it is followed by as many immediate words as its input fields ask for (`30_encoding.md` R86). -/

namespace Sys2Proof

/-- Whether the variant has the instruction: `INTR` is not one of variant L, which has no `IR` (the
`variants` column of the opcode table). -/
def Instr.inVariant (v : Variant) : Instr → Bool
  | .copy _ => true
  | .get _ => true
  | .set _ => true
  | .store8 _ => true
  | .store16 _ => true
  | .load8 _ => true
  | .load16 _ => true
  | .cpuid _ => true
  | .halt _ => true
  | .frget _ => true
  | .frset _ => true
  | .bpget _ => true
  | .bpset _ => true
  | .spget _ => true
  | .spset _ => true
  | .add _ => true
  | .sub _ => true
  | .mul _ => true
  | .div _ => true
  | .mod _ => true
  | .and _ => true
  | .or _ => true
  | .xor _ => true
  | .not _ => true
  | .signext _ => true
  | .rol _ => true
  | .ror _ => true
  | .bswap _ => true
  | .asr _ => true
  | .lsl _ => true
  | .lsr _ => true
  | .setip _ => true
  | .addip _ => true
  | .intr _ => decide (v = .II)

/-- One immediate word for each input field equal to Immediate, and no more (R86, R87). -/
def FullInstr.immsMatch (f : FullInstr) : Bool := f.imms.length == f.instr.conf.immCount

/-- The checks together. -/
def FullInstr.wellFormed (v : Variant) (f : FullInstr) : Bool := f.instr.inVariant v && f.immsMatch

end Sys2Proof
end

