-- ==== Sys2Proof/Safety.lean ====
section
/-! DEFINITION. What a good state is, when a run has ended, and the closed forms in which the statements say what an
instruction does. The closed forms are written from the rules, not from the machine's code: they read the state before the
instruction. -/

namespace Sys2Proof.Machine

/-! ### Good states and finished runs -/

/-- Bit 0 of a pointer is "reserved, must be zero" (`10_state.md` R21 to R23). -/
abbrev WordEven (v : Word) : Prop := v.getLsbD 0 = false

/-- What holds in every run without fault, for all values of `SP` and `BP` at reset. -/
structure State.Inv (s : State) : Prop where
  /-- The memory is in its canonical form. -/
  mem_wf : s.mem.wf = true
  /-- `IP` is even (R23). -/
  ip_even : WordEven s.ip
  /-- The reserved bits of `FR` read 0 (R28). -/
  fr_reserved : s.fr &&& frReservedMask s.cfg.variant = 0
  /-- The reserved bits of `IR` are 0 (R31). -/
  ir_reserved : s.ir &&& irReservedMask = 0
  /-- Variant L has no `IR` (R29). -/
  no_ir_on_l : s.cfg.variant = .L → s.ir = 0

/-- A run has ended (R257): on variant II after a halt with nothing pending and no pin signalled from then on, on variant L
after any halt (log entry 27). -/
def State.Finished (s : State) : Prop :=
  s.halted = true ∧ (s.cfg.variant = .II → s.ir = 0 ∧ ∀ p ∈ s.ext, p = Pins.quiet)

/-- A reset sequence runs at the boundary of this state (R209, R250, R252). -/
def State.resetRuns (s : State) : Bool :=
  match s.cfg.variant with
  | .II => s.ir.getLsbD 0 || (currentPins s).rst
  | .L => (currentPins s).rst

/-- Nothing happens at the boundary of this state: no pin is signalled and, on variant II, nothing is pending. -/
def State.boundaryQuiet (s : State) : Prop :=
  match s.cfg.variant with
  | .II => s.ir = 0 ∧ currentPins s = Pins.quiet
  | .L => (currentPins s).rst = false

/-! ### When an instruction's accesses can be made -/

/-- Every access reaches plain memory: `BusFault` is never, `Device` is none (the defaults of R6). -/
def PlainPlatform (cfg : Config) : Prop :=
  (∀ a w k, busFault cfg a w k = false) ∧ ∀ a, isDevice cfg a = false

/-- Whether an input field reads the stack (R83). -/
def readsStack : InputMode → Bool
  | .zero => false
  | .imm => false
  | .peek => true
  | .pop => true

/-- The inputs of an instruction at `IP` can be obtained. -/
structure InputsReady (c : Conf) (s : State) : Prop where
  plain : PlainPlatform s.cfg
  ip_even : WordEven s.ip
  sp_even : (readsStack c.in0 || readsStack c.in1) = true → WordEven s.sp

/-- The instruction is executed and its inputs can be obtained. -/
structure Runs (c : Conf) (s : State) : Prop where
  executed : isExecuted c.cond s.fr = true
  inputs : InputsReady c s

/-- The output can be pushed with this `SP`, if it is to be pushed. -/
def OutputReady (c : Conf) (sp : Word) : Prop := c.out = .push → WordEven sp

/-! ### What an executed instruction is given and leaves (`40_execution_model.md` R118 to R122) -/

/-- Input 0, from the state in which `IP` is the instruction's address (R87, R118). -/
def input0Of (c : Conf) (s : State) : Word :=
  match c.in0 with
  | .zero => 0
  | .imm => s.mem.readWord (s.ip + 2)
  | .peek => s.mem.readWord s.sp
  | .pop => s.mem.readWord s.sp

/-- Where input 1 looks on the stack: below the word that input 0 popped (R118). -/
def secondStackAddress (c : Conf) (s : State) : Word := if c.in0 = .pop then s.sp + 2 else s.sp

/-- Input 1; its immediate stands after input 0's (R87, R118). -/
def input1Of (c : Conf) (s : State) : Word :=
  match c.in1 with
  | .zero => 0
  | .imm => s.mem.readWord (if c.in0 = .imm then s.ip + 4 else s.ip + 2)
  | .peek => s.mem.readWord (secondStackAddress c s)
  | .pop => s.mem.readWord (secondStackAddress c s)

/-- The address of the next sequential instruction (R86, R122). -/
def nextIP (c : Conf) (s : State) : Word :=
  s.ip + 2 + (if c.in0 = .imm then 2 else 0) + (if c.in1 = .imm then 2 else 0)

/-- `SP` after the Pop inputs (R118, R122). -/
def spAfterInputs (c : Conf) (s : State) : Word :=
  s.sp + (if c.in0 = .pop then 2 else 0) + (if c.in1 = .pop then 2 else 0)

/-- The state in which the command runs (R122). -/
def afterInputs (c : Conf) (s : State) : State := { s with ip := nextIP c s, sp := spAfterInputs c s }

/-- `FR` with `Z` and `N` of an output, the other bits unchanged (R121). -/
def znOf (fr out : Word) : Word :=
  (fr &&& 0xFFFC) ||| (if out = 0 then 0x0001 else 0) ||| (if 0x8000 ≤ out then 0x0002 else 0)

/-- The carry-in of `ADD` and `SUB` as a number: 1 exactly when `C` and `CE` are both set (R160). -/
def carryInOf (fr : Word) : Nat := if fr.getLsbD 2 = true ∧ fr.getLsbD 3 = true then 1 else 0

/-- `FR` with `C` given, the other bits unchanged (R160). -/
def withCarry (fr : Word) (carry : Bool) : Word := (fr &&& 0xFFFB) ||| (if carry then 0x0004 else 0)

/-- The end of an instruction whose command gave `out` and left the state `t`: the push, then the flags
(R119, R120, R121). -/
def completed (c : Conf) (out : Word) (t : State) : State :=
  { t with
    sp := if c.out = .push then t.sp - 2 else t.sp
    mem := if c.out = .push then t.mem.writeWord (t.sp - 2) out else t.mem
    fr := if c.flag = .yes then znOf t.fr out else t.fr }

/-- The address of the output's push (R120): below `SP` as the inputs and the command leave it. -/
def pushAddress (i : Instr) (s : State) : Word :=
  match i with
  | .spset c => input0Of c s - 2
  | _ => spAfterInputs i.conf s - 2

/-- The addresses of the two bytes of the word at `a`. -/
def wordAddresses (a : Word) : List Nat := [a.toNat, (a + 1).toNat]

/-- The addresses that the command itself stores to (R54): `SET`, `STORE8` and `STORE16`, no other. -/
def commandStores (i : Instr) (s : State) : List Nat :=
  match i with
  | .set c => wordAddresses (s.bp + 2 * input0Of c s)
  | .store8 c => [(input1Of c s).toNat]
  | .store16 c => wordAddresses (input1Of c s)
  | _ => []

/-- All addresses that an executed instruction stores to. -/
def storedAddresses (i : Instr) (s : State) : List Nat :=
  commandStores i s ++ (if i.conf.out = .push then wordAddresses (pushAddress i s) else [])

/-- Where an executed instruction leaves `IP` (R122, R185, R186). -/
def targetIP (i : Instr) (s : State) : Word :=
  match i with
  | .setip c => input0Of c s
  | .addip c => nextIP c s + input0Of c s
  | _ => nextIP i.conf s

/-! ### The accesses of an executed instruction after the fetch of its word, in their order (`20_memory.md` R58) -/

/-- One memory access. -/
structure MemAccess where
  address : Word
  width : Width
  kind : AccessKind
deriving DecidableEq, Repr

/-- The access that fills an input, with `IP` and `SP` as they are when it is made (R118). -/
def inputAccess (m : InputMode) (ip sp : Word) : List MemAccess :=
  match m with
  | .zero => []
  | .imm => [⟨ip, .word, .code⟩]
  | .peek => [⟨sp, .word, .data⟩]
  | .pop => [⟨sp, .word, .data⟩]

/-- The command's own access (R54): `GET`, `SET`, `STORE8`, `STORE16`, `LOAD8`, `LOAD16`, no other. -/
def commandAccess (i : Instr) (s : State) : List MemAccess :=
  match i with
  | .get c => [⟨s.bp + 2 * input0Of c s, .word, .data⟩]
  | .set c => [⟨s.bp + 2 * input0Of c s, .word, .data⟩]
  | .store8 c => [⟨input1Of c s, .byte, .data⟩]
  | .store16 c => [⟨input1Of c s, .word, .data⟩]
  | .load8 c => [⟨input0Of c s, .byte, .data⟩]
  | .load16 c => [⟨input0Of c s, .word, .data⟩]
  | _ => []

/-- Input 0, input 1, the command, the push of the output (R58, R116). -/
def instrAccesses (i : Instr) (s : State) : List MemAccess :=
  inputAccess i.conf.in0 (s.ip + 2) s.sp
    ++ inputAccess i.conf.in1 (if i.conf.in0 = .imm then s.ip + 4 else s.ip + 2) (secondStackAddress i.conf s)
    ++ commandAccess i s
    ++ (if i.conf.out = .push then [⟨pushAddress i s, .word, .data⟩] else [])

/-- The checks that a command makes on its operands itself, beside its access: where they fail it stops before the push
(`00_scope.md` R10; D9 to D11, D27). -/
def commandChecks (i : Instr) (s : State) : Prop :=
  match i with
  | .cpuid c => input0Of c s = 0 ∧ input1Of c s = 0
  | .frset c =>
    ((input0Of c s &&& ~~~ input1Of c s) ||| (s.fr &&& input1Of c s)) &&& frReservedMask s.cfg.variant = 0
  | .bpset c => WordEven (input0Of c s)
  | .spset c => WordEven (input0Of c s)
  | .setip c => WordEven (input0Of c s) ∧ (s.fr ||| input1Of c s) &&& frReservedMask s.cfg.variant = 0
  | .addip c => WordEven (nextIP c s + input0Of c s) ∧ (s.fr ||| input1Of c s) &&& frReservedMask s.cfg.variant = 0
  | .intr c => s.cfg.variant = .II ∧ input0Of c s &&& irReservedMask = 0
  | _ => True

/-- The platform answers the access as plain memory does. -/
def MemAccess.isPlain (cfg : Config) (x : MemAccess) : Prop := access cfg x.address x.width x.kind = .ok ()

/-- The platform answers the access with the `BUS` pin (R211); a misaligned word access is not made at all (R53). -/
def MemAccess.hitsBus (cfg : Config) (x : MemAccess) : Prop :=
  (x.width = .word → WordEven x.address) ∧ busFault cfg x.address x.width x.kind = true

/-- The condition is false (R115). -/
def skipped (i : Instr) (s : State) : Bool := !isExecuted i.conf.cond s.fr

/-- The instruction is executed and the platform has a `BUS` answer for one of its accesses, so that it cannot complete
(R211). -/
def undone (i : Instr) (s : State) : Bool :=
  isExecuted i.conf.cond s.fr && (instrAccesses i s).any fun x => busFault s.cfg x.address x.width x.kind

/-! ### Arithmetic (`43_arithmetic.md`) -/

/-- Signed readings of the carry of `MUL` and the unsigned one, over the exact products (R163, D8). -/
def mulCarryOf (m : MulCarry) (a b : Word) : Bool :=
  match m with
  | .unsigned => decide (65536 ≤ a.toNat * b.toNat)
  | .signedBits => decide (a.toInt * b.toInt < 0 ∨ 65536 ≤ a.toInt * b.toInt)
  | .signedFit => decide (a.toInt * b.toInt < -32768 ∨ 32767 < a.toInt * b.toInt)

/-- The quotient of `DIV_ROUND` as a rounding of the rational number `a / b` (R166): toward zero, or toward minus
infinity. -/
def roundedQuotient (r : DivRound) (a b : Int) : Int :=
  match r with
  | .truncate => if 0 ≤ a * b then (a.natAbs / b.natAbs : Nat) else -(a.natAbs / b.natAbs : Nat)
  | .floor => ⌊(a : ℚ) / (b : ℚ)⌋

/-! ### Interrupts (`60_exceptions.md`) -/

/-- The memory after the two pushes of an interrupt entry (R205). -/
def entryMemory (n : Nat) (s : State) : Memory :=
  (s.mem.writeWord (s.sp - 2) (1#16 <<< n)).writeWord (s.sp - 4) s.ip

/-- The state after the entry into interrupt `n` (R205). -/
def entered (n : Nat) (s : State) : State :=
  { s with
    sp := s.sp - 4
    ip := (entryMemory n s).readWord (BitVec.ofNat 16 (2 * n))
    mem := entryMemory n s
    fr := if 4 ≤ n then s.fr &&& ~~~ (1#16 <<< n) else s.fr
    ir := s.ir &&& ~~~ (1#16 <<< n)
    halted := false }

/-- The accesses of the entry into interrupt `n`, in their order (R205). -/
def entryAccesses (n : Nat) (s : State) : List MemAccess :=
  [⟨s.sp - 2, .word, .data⟩, ⟨s.sp - 4, .word, .data⟩, ⟨BitVec.ofNat 16 (2 * n), .word, .code⟩]

/-- The pending interrupts from `lo` to `lo + n - 1`, each served once, the highest first: with `lo = 0` and `n = 16` the closed
form of `while IR != 0`. -/
def serveDescending (lo : Nat) : Nat → State → Result State
  | 0, s => .ok s
  | n + 1, s =>
    if s.ir.getLsbD (lo + n) then (serveInterrupt (lo + n) s).bind (serveDescending lo n) else serveDescending lo n s

/-- The state of variant II in which the interrupt phase begins: the pins of the boundary taken in (R201). -/
def withPins (s : State) : State := { s with ir := s.ir ||| pinBits (currentPins s), ext := s.ext.tail }

/-- The state after interrupt `n` is looked at: entered if it is pending and taken, dropped if it is pending and masked (R205). -/
def served (n : Nat) (s : State) : State :=
  if s.ir.getLsbD n = true then
    if n < 4 ∨ s.fr.getLsbD n = true then entered n s else { s with ir := s.ir &&& ~~~ (1#16 <<< n) }
  else s

/-- The state after the whole interrupt phase, the highest number first (R205, R206). -/
def enterDescending : Nat → State → State
  | 0, s => s
  | n + 1, s => enterDescending n (served n s)

/-- Every handler address that the phase reads is even. -/
def handlersEven : Nat → State → Bool
  | 0, _ => true
  | n + 1, s =>
    decide (s.ir.getLsbD n = true → (n < 4 ∨ s.fr.getLsbD n = true) → WordEven (entered n s).ip) &&
      handlersEven n (served n s)

/-- `setip [i0:pop] [i1:pop]`, the return from an interrupt (R207). -/
def interruptReturn : Instr :=
  .setip { cond := .always, in0 := .pop, in1 := .pop, flag := .no, out := .discard }

/-! ### Which instructions write what (`10_state.md`) -/

/-- `FR` written as a whole by the command (R25, R26). -/
def writesWholeFR : Instr → Bool
  | .frset _ => true
  | .setip _ => true
  | .addip _ => true
  | _ => false

/-- `C` written by the command (R160). -/
def writesCarry : Instr → Bool
  | .add _ => true
  | .sub _ => true
  | .mul _ => true
  | _ => false

/-- A pending bit of `IR` set by the command (R30). -/
def setsPending : Instr → Bool
  | .div _ => true
  | .mod _ => true
  | .intr _ => true
  | _ => false

/-- A free value drawn by the command (R151, R164, R165). -/
def mayDraw : Instr → Bool
  | .halt _ => true
  | .div _ => true
  | .mod _ => true
  | _ => false

def isHalt : Instr → Bool
  | .halt _ => true
  | _ => false

def isBpset : Instr → Bool
  | .bpset _ => true
  | _ => false

def isSpset : Instr → Bool
  | .spset _ => true
  | _ => false

end Sys2Proof.Machine
end

