-- ==== Sys2Proof/Certificates/Slice0/Obligations.lean ====
section
/-! DEFINITION. The statements for the provers. A completion statement's hypotheses are on the state and the operands alone:
`Runs c s` (the condition holds and the inputs can be obtained on a plain platform) and `OutputReady` (`SP` is even if the output is
pushed). Its conclusion gives the whole next state, so it is the instruction's frame on that path too. The frame statements
hold for every next state on every platform. Statements marked DESIGN CHOICE or DEDUCED in their docstrings rest on a
decision of the spec (`92_eei_decisions.md`) or on a log entry. -/

open Sys2Proof Sys2Proof.Machine

/-! ### Encoding -/

/-- Decoding the word of an instruction gives the instruction, for all 34 commands and all their configurations. -/
def Obligations.DecodeWordOfEncodeWord : Prop :=
  ∀ i : Instr, decodeWord (encodeWord i) = .ok i

/-- Decoding the bytes of a well-formed instruction, with its immediates and with any bytes after it, gives the
instruction, its immediates and the bytes after it. -/
def Obligations.DecodeOfEncodeWithImmediates : Prop :=
  ∀ (v : Variant) (f : FullInstr) (rest : List Byte), f.wellFormed v = true →
    decode (encode f ++ rest) = .ok (f, rest)

/-- Every word that decodes is the word of the instruction it decodes to: no bit is dropped. -/
def Obligations.EncodeWordOfDecodeWord : Prop :=
  ∀ (w : Word) (i : Instr), decodeWord w = .ok i → encodeWord i = w

/-- DESIGN CHOICE of the spec (D9): a word with bit 15 set, or else with command 1 or 35 to 63, is refused by its own
name, and a fetch of it stops the machine whatever its condition and whatever the flags. -/
def Obligations.ReservedWordsAreRefused : Prop :=
  ∀ w : Word,
    (decodeWord w = .error .reservedBit15 ↔ w.getLsbD 15 = true) ∧
    (decodeWord w = .error .reservedCommand ↔
      w.getLsbD 15 = false ∧ (w.toNat / 512 % 64 = 1 ∨ 35 ≤ w.toNat / 512 % 64)) ∧
    ∀ s : State, PlainPlatform s.cfg → WordEven s.ip → s.mem.readWord s.ip = w →
      (decodeWord w = .error .reservedBit15 → executeOne s = .fault .reservedBit15) ∧
      (decodeWord w = .error .reservedCommand → executeOne s = .fault .reservedCommand)

/-- Words written out from the field table decode to the instructions they stand for. -/
def Obligations.SampleWordsDecode : Prop :=
  decodeTableWord 16 0x21F8 = some (.add ⟨.always, .pop, .pop, .yes, .push⟩) ∧
  decodeTableWord 16 0x22B1 = some (.sub ⟨.zero, .peek, .imm, .yes, .discard⟩) ∧
  decodeTableWord 16 0x0668 = some (.set ⟨.always, .imm, .pop, .no, .discard⟩) ∧
  decodeTableWord 16 0x3F9E = some (.lsr ⟨.lequal, .pop, .zero, .yes, .push⟩) ∧
  decodeTableWord 16 0x1D05 = some (.spget ⟨.gequal, .zero, .zero, .no, .push⟩) ∧
  decodeTableWord 16 0x4078 = some (.setip ⟨.always, .pop, .pop, .no, .discard⟩) ∧
  decodeTableWord 16 0x420F = some (.addip ⟨.ovfl, .imm, .zero, .no, .discard⟩)

/-- R86: an instruction occupies `2 + 2·[in0 = 1] + 2·[in1 = 1]` bytes, and its length can be told from bits 4:3 and 6:5 of
its word alone: so many bytes the encoder gives and the decoder takes. -/
def Obligations.LengthFollowsInputFields : Prop :=
  (∀ f : FullInstr, f.immsMatch = true →
    (encode f).length = 2 + (if bits (encodeWord f.instr) 3 2 = 1 then 2 else 0)
      + (if bits (encodeWord f.instr) 5 2 = 1 then 2 else 0)) ∧
  ∀ (lo hi : Byte) (bs rest : List Byte) (f : FullInstr), decode (lo :: hi :: bs) = .ok (f, rest) →
    (lo :: hi :: bs).length = rest.length + 2 + (if bits (wordOfBytes lo hi) 3 2 = 1 then 2 else 0)
      + (if bits (wordOfBytes lo hi) 5 2 = 1 then 2 else 0)

/-! ### The step and the wrapper -/

/-- A step runs the decoded instruction. When the word at `IP`, after the boundary, decodes to `i`, the step is `exec i` at the
state after the boundary; and where nothing happens at the boundary, that is the state itself with this boundary's pins
consumed. `exec` itself moves `IP` past the word. -/
def Obligations.StepRunsDecodedInstruction : Prop :=
  (∀ (s b : State) (i : Instr), boundary s = .ok b → b.halted = false → access b.cfg b.ip .word .code = .ok () →
    decodeWord (b.mem.readWord b.ip) = .ok i → step s = exec i b) ∧
  ∀ (s : State) (i : Instr), s.boundaryQuiet → s.halted = false → access s.cfg s.ip .word .code = .ok () →
    decodeWord (s.mem.readWord s.ip) = .ok i → step s = exec i { s with ext := s.ext.tail }

/-- R82: the eight values of bits 2:0 of the instruction word as predicates on `Z`, `N` and `C` of `FR`. -/
def Obligations.ConditionsFollowTheTable : Prop :=
  ∀ w fr : Word,
    (bits w 0 3 = 0 → isExecuted (confOfWord w).cond fr = true) ∧
    (bits w 0 3 = 1 → (isExecuted (confOfWord w).cond fr = true ↔ fr.getLsbD 0 = true)) ∧
    (bits w 0 3 = 2 → (isExecuted (confOfWord w).cond fr = true ↔ fr.getLsbD 0 = false)) ∧
    (bits w 0 3 = 3 → (isExecuted (confOfWord w).cond fr = true ↔ fr.getLsbD 0 = false ∧ fr.getLsbD 1 = false)) ∧
    (bits w 0 3 = 4 → (isExecuted (confOfWord w).cond fr = true ↔ fr.getLsbD 1 = true)) ∧
    (bits w 0 3 = 5 → (isExecuted (confOfWord w).cond fr = true ↔ fr.getLsbD 0 = true ∨ fr.getLsbD 1 = false)) ∧
    (bits w 0 3 = 6 → (isExecuted (confOfWord w).cond fr = true ↔ fr.getLsbD 0 = true ∨ fr.getLsbD 1 = true)) ∧
    (bits w 0 3 = 7 → (isExecuted (confOfWord w).cond fr = true ↔ fr.getLsbD 2 = true))

/-- R115, with the spec's decision D18 and log entry 11 (DEDUCED) for the platform: an instruction whose condition is false only
advances `IP` past its immediates; on every platform, since its immediates are not read and it makes no access. -/
def Obligations.NotExecutedOnlyAdvancesIP : Prop :=
  ∀ (i : Instr) (s : State), isExecuted i.conf.cond s.fr = false →
    exec i s = .next { s with ip := nextIP i.conf s }

/-- R118: input 0 is obtained before input 1, from zero, the words behind the instruction word, or the stack; `IP` and `SP` move
as the two input fields say; and a Peek or Pop with an odd `SP` stops as a misaligned access. -/
def Obligations.InputsAreObtainedInOrder : Prop :=
  (∀ (c : Conf) (s : State), InputsReady c s →
    fetchInputs c { s with ip := s.ip + 2 } = .ok (input0Of c s, input1Of c s, afterInputs c s)) ∧
  ∀ s : State, s.sp.getLsbD 0 = true →
    fetchInput .peek s = .fault .misaligned ∧ fetchInput .pop s = .fault .misaligned

/-- R119: a push decrements `SP` by two, modulo 2^16, and stores the word there, low byte first; nothing else changes. An odd
`SP` stops. -/
def Obligations.PushStoresBelow : Prop :=
  (∀ (v : Word) (s : State), PlainPlatform s.cfg → WordEven s.sp → s.mem.wf = true →
    ∃ m : Memory, push v s = .ok { s with sp := s.sp - 2, mem := m } ∧
      m.readByte (s.sp - 2) = loByte v ∧ m.readByte (s.sp - 1) = hiByte v ∧ m.readWord (s.sp - 2) = v ∧
      ∀ x : Nat, x ∉ wordAddresses (s.sp - 2) → m.read x = s.mem.read x) ∧
  ∀ (v : Word) (s : State), s.sp.getLsbD 0 = true → push v s = .fault .misaligned

/-- R120, R121: the last stages of an executed instruction, whatever its command is: the output is dropped or pushed with the
`SP` that the command left; then, with flag modification, `Z` says whether the output is zero and `N` is its bit 15, every other
bit of `FR` and every other part of the state unchanged. Without it nothing changes. -/
def Obligations.OutputThenFlagStage : Prop :=
  (∀ (c : Conf) (cmd : Command) (s t : State), runStages c cmd s = .ok t →
    ∃ (a b out : Word) (s1 u v : State), fetchInputs c s = .ok (a, b, s1) ∧ cmd a b s1 = .ok (out, u) ∧
      (c.out = .discard → v = u) ∧ (c.out = .push → push out u = .ok v) ∧ t = modifyFlags c.flag out v) ∧
  ∀ (out : Word) (s : State),
    modifyFlags .no out s = s ∧
    ∃ fr : Word, modifyFlags .yes out s = { s with fr := fr } ∧
      (fr.getLsbD 0 = true ↔ out = 0) ∧ fr.getLsbD 1 = out.getLsbD 15 ∧
      ∀ n : Nat, 2 ≤ n → fr.getLsbD n = s.fr.getLsbD n

/-- R51: every 16-bit access, of code and of data, takes the byte at the even address as the less significant byte of the
word and the byte above it as the more significant one; and after a `STORE16` without push the two bytes at its address are the
low and the high byte of input 0, every other byte as before. -/
def Obligations.WordsAreLittleEndian : Prop :=
  (∀ (k : AccessKind) (a : Word) (s : State), PlainPlatform s.cfg → WordEven a →
    memRead16 k a s = .ok ((s.mem.readByte a).setWidth 16 ||| (s.mem.readByte (a + 1)).setWidth 16 <<< 8)) ∧
  (∀ (a v : Word) (s : State), PlainPlatform s.cfg → WordEven a → s.mem.wf = true →
    ∃ m : Memory, memWrite16 a v s = .ok { s with mem := m } ∧
      v = (m.readByte a).setWidth 16 ||| (m.readByte (a + 1)).setWidth 16 <<< 8 ∧
      ∀ x : Nat, x ∉ wordAddresses a → m.read x = s.mem.read x) ∧
  ∀ (c : Conf) (s : State), s.mem.wf = true → Runs c s → c.out = .discard → WordEven (input1Of c s) →
    ∃ t : State, exec (.store16 c) s = .next t ∧
      t.mem.readByte (input1Of c s) = loByte (input0Of c s) ∧
      t.mem.readByte (input1Of c s + 1) = hiByte (input0Of c s) ∧
      ∀ x : Nat, x ∉ wordAddresses (input1Of c s) → t.mem.read x = s.mem.read x

/-! ### Data movement -/

/-- R140: `COPY` outputs input 0. -/
def Obligations.CopyCompletes : Prop :=
  ∀ (c : Conf) (s : State), Runs c s → OutputReady c (spAfterInputs c s) →
    exec (.copy c) s = .next (completed c (input0Of c s) (afterInputs c s))

/-- R141: `GET` outputs the word at `BP + 2 * input0`; with an odd `BP` it stops. -/
def Obligations.GetCompletes : Prop :=
  ∀ (c : Conf) (s : State), Runs c s →
    (WordEven s.bp → OutputReady c (spAfterInputs c s) →
      exec (.get c) s = .next (completed c (s.mem.readWord (s.bp + 2 * input0Of c s)) (afterInputs c s))) ∧
    (s.bp.getLsbD 0 = true → exec (.get c) s = .fault .misaligned)

/-- R142: `SET` stores input 1 at `BP + 2 * input0`, then outputs it; with an odd `BP` it stops. -/
def Obligations.SetCompletes : Prop :=
  ∀ (c : Conf) (s : State), Runs c s →
    (WordEven s.bp → OutputReady c (spAfterInputs c s) →
      exec (.set c) s = .next (completed c (input1Of c s)
        { afterInputs c s with mem := s.mem.writeWord (s.bp + 2 * input0Of c s) (input1Of c s) })) ∧
    (s.bp.getLsbD 0 = true → exec (.set c) s = .fault .misaligned)

/-- DEDUCED by the spec (D5) for the byte stored: `STORE8` stores the low byte of input 0 at the address input 1, odd or even, and
outputs that byte. -/
def Obligations.Store8Completes : Prop :=
  ∀ (c : Conf) (s : State), Runs c s → OutputReady c (spAfterInputs c s) →
    exec (.store8 c) s = .next (completed c (input0Of c s &&& 0x00FF)
      { afterInputs c s with mem := s.mem.writeByte (input1Of c s) (loByte (input0Of c s)) })

/-- R144: `STORE16` stores input 0 at the even address input 1 and outputs it; an odd address stops. -/
def Obligations.Store16Completes : Prop :=
  ∀ (c : Conf) (s : State), Runs c s →
    (WordEven (input1Of c s) → OutputReady c (spAfterInputs c s) →
      exec (.store16 c) s = .next (completed c (input0Of c s)
        { afterInputs c s with mem := s.mem.writeWord (input1Of c s) (input0Of c s) })) ∧
    ((input1Of c s).getLsbD 0 = true → exec (.store16 c) s = .fault .misaligned)

/-- DESIGN CHOICE of the spec (D4): `LOAD8` outputs the byte at the address input 0, odd or even, zero-extended. -/
def Obligations.Load8Completes : Prop :=
  ∀ (c : Conf) (s : State), Runs c s → OutputReady c (spAfterInputs c s) →
    exec (.load8 c) s = .next (completed c ((s.mem.readByte (input0Of c s)).setWidth 16) (afterInputs c s))

/-- R146: `LOAD16` outputs the word at the even address input 0; an odd address stops. -/
def Obligations.Load16Completes : Prop :=
  ∀ (c : Conf) (s : State), Runs c s →
    (WordEven (input0Of c s) → OutputReady c (spAfterInputs c s) →
      exec (.load16 c) s = .next (completed c (s.mem.readWord (input0Of c s)) (afterInputs c s))) ∧
    ((input0Of c s).getLsbD 0 = true → exec (.load16 c) s = .fault .misaligned)

/-! ### System and registers -/

/-- DESIGN CHOICE of the spec (D27): `CPUID` with both inputs zero outputs zero, and with any other inputs it stops. -/
def Obligations.CpuidCompletes : Prop :=
  ∀ (c : Conf) (s : State), Runs c s →
    (input0Of c s = 0 ∧ input1Of c s = 0 → OutputReady c (spAfterInputs c s) →
      exec (.cpuid c) s = .next (completed c 0x0000 (afterInputs c s))) ∧
    (¬ (input0Of c s = 0 ∧ input1Of c s = 0) → exec (.cpuid c) s = .fault .cpuidNonzeroInput)

/-- DESIGN CHOICE of the spec (D12; log entry 5): `HALT` completes, with a free output whatever the draw, and leaves the
machine halted. -/
def Obligations.HaltCompletes : Prop :=
  ∀ (c : Conf) (s : State), Runs c s → OutputReady c (spAfterInputs c s) →
    exec (.halt c) s = .next (completed c (Config.freeWord s.draws)
      { afterInputs c s with halted := true, draws := s.draws + 1 })

/-- R152: `FRGET` outputs `FR` with the bits of input 1 cleared, and does not change `FR`. -/
def Obligations.FrgetCompletes : Prop :=
  ∀ (c : Conf) (s : State), Runs c s → OutputReady c (spAfterInputs c s) →
    exec (.frget c) s = .next (completed c (s.fr &&& ~~~ input1Of c s) (afterInputs c s))

/-- DESIGN CHOICE of the spec (D11) where a reserved bit would be set: `FRSET` takes the bits of input 0 where input 1 is 0 and
keeps the others, and outputs the old `FR`; a new value with a reserved bit stops. -/
def Obligations.FrsetCompletes : Prop :=
  ∀ (c : Conf) (s : State), Runs c s →
    (((input0Of c s &&& ~~~ input1Of c s) ||| (s.fr &&& input1Of c s)) &&& frReservedMask s.cfg.variant = 0 →
      OutputReady c (spAfterInputs c s) →
      exec (.frset c) s = .next (completed c s.fr
        { afterInputs c s with fr := (input0Of c s &&& ~~~ input1Of c s) ||| (s.fr &&& input1Of c s) })) ∧
    (((input0Of c s &&& ~~~ input1Of c s) ||| (s.fr &&& input1Of c s)) &&& frReservedMask s.cfg.variant ≠ 0 →
      exec (.frset c) s = .fault .frReserved)

/-- DESIGN CHOICE of the spec (D2) for what `SPGET` reads: `BPGET` outputs `BP`; `SPGET` outputs `SP` as it is after the inputs were
obtained and before the push. -/
def Obligations.BpgetAndSpgetComplete : Prop :=
  ∀ (c : Conf) (s : State), Runs c s → OutputReady c (spAfterInputs c s) →
    exec (.bpget c) s = .next (completed c s.bp (afterInputs c s)) ∧
    exec (.spget c) s = .next (completed c (spAfterInputs c s) (afterInputs c s))

/-- DESIGN CHOICE of the spec (D10) for an odd value: `BPSET` installs input 0 and outputs the old `BP`; an odd value stops. -/
def Obligations.BpsetCompletes : Prop :=
  ∀ (c : Conf) (s : State), Runs c s →
    (WordEven (input0Of c s) → OutputReady c (spAfterInputs c s) →
      exec (.bpset c) s = .next (completed c s.bp { afterInputs c s with bp := input0Of c s })) ∧
    ((input0Of c s).getLsbD 0 = true → exec (.bpset c) s = .fault .oddPointer)

/-- DESIGN CHOICE of the spec (D10) for an odd value: `SPSET` installs input 0 and outputs the `SP` left by the inputs, and a push
goes to the new stack, whatever the old `SP` was; an odd value stops. -/
def Obligations.SpsetCompletes : Prop :=
  ∀ (c : Conf) (s : State), Runs c s →
    (WordEven (input0Of c s) →
      exec (.spset c) s = .next (completed c (spAfterInputs c s) { afterInputs c s with sp := input0Of c s })) ∧
    ((input0Of c s).getLsbD 0 = true → exec (.spset c) s = .fault .oddPointer)

/-! ### Arithmetic -/

/-- R161: `ADD` outputs the sum with the carry-in, modulo 2^16, and always writes `C`: whether the sum needs a 17th
bit. -/
def Obligations.AddCompletes : Prop :=
  ∀ (c : Conf) (s : State), Runs c s → OutputReady c (spAfterInputs c s) →
    exec (.add c) s = .next (completed c
      (BitVec.ofNat 16 ((input0Of c s).toNat + (input1Of c s).toNat + carryInOf s.fr))
      { afterInputs c s with
        fr := withCarry s.fr (decide (65536 ≤ (input0Of c s).toNat + (input1Of c s).toNat + carryInOf s.fr)) })

/-- R162: `SUB` outputs the difference with the carry-in, modulo 2^16, and always writes `C`: the borrow. -/
def Obligations.SubCompletes : Prop :=
  ∀ (c : Conf) (s : State), Runs c s → OutputReady c (spAfterInputs c s) →
    exec (.sub c) s = .next (completed c
      (BitVec.ofInt 16 (((input0Of c s).toNat : Int) - (input1Of c s).toNat - carryInOf s.fr))
      { afterInputs c s with
        fr := withCarry s.fr (decide ((input0Of c s).toNat < (input1Of c s).toNat + carryInOf s.fr)) })

/-- DESIGN CHOICE of the spec (D8; log entry 3) for the carry: `MUL` outputs the low 16 bits of the product and always writes `C`, as the
parameter `MUL_CARRY` says: under the default, whether the unsigned product does not fit in 16 bits. -/
def Obligations.MulCompletes : Prop :=
  ∀ (c : Conf) (s : State), Runs c s → OutputReady c (spAfterInputs c s) →
    exec (.mul c) s = .next (completed c (BitVec.ofNat 16 ((input0Of c s).toNat * (input1Of c s).toNat))
      { afterInputs c s with fr := withCarry s.fr (mulCarryOf s.cfg.mulCarry (input0Of c s) (input1Of c s)) })

/-- DESIGN CHOICE of the spec (D6; log entry 3) for the rounding: with a divisor that is not zero, `DIV` outputs the low 16 bits of the
signed quotient rounded as `DIV_ROUND` says, and `MOD` those of `input0 - q * input1`; neither writes `C`. -/
def Obligations.DivAndModComplete : Prop :=
  ∀ (c : Conf) (s : State), Runs c s → OutputReady c (spAfterInputs c s) → input1Of c s ≠ 0 →
    exec (.div c) s = .next (completed c
      (BitVec.ofInt 16 (roundedQuotient s.cfg.divRound (input0Of c s).toInt (input1Of c s).toInt)) (afterInputs c s)) ∧
    exec (.mod c) s = .next (completed c
      (BitVec.ofInt 16 ((input0Of c s).toInt -
        roundedQuotient s.cfg.divRound (input0Of c s).toInt (input1Of c s).toInt * (input1Of c s).toInt))
      (afterInputs c s))

/-- DESIGN CHOICE of the spec (D7, D21; log entry 5): `DIV` and `MOD` by zero complete with a free output, whatever the draw, and on
variant II make interrupt 4 (`ARITH`) pending; on variant L nothing is raised. -/
def Obligations.DivisionByZeroCompletes : Prop :=
  ∀ (c : Conf) (s : State), Runs c s → OutputReady c (spAfterInputs c s) → input1Of c s = 0 →
    exec (.div c) s = .next (completed c (Config.freeWord s.draws)
      { afterInputs c s with
        ir := if s.cfg.variant = .II then s.ir ||| 0x0010 else s.ir, draws := s.draws + 1 }) ∧
    exec (.mod c) s = .next (completed c (Config.freeWord s.draws)
      { afterInputs c s with
        ir := if s.cfg.variant = .II then s.ir ||| 0x0010 else s.ir, draws := s.draws + 1 })

/-- DESIGN CHOICE of the spec (D6): truncating division obeys the division law, the remainder is zero or of the dividend's
sign, and the one quotient that does not fit keeps its low 16 bits with remainder zero. -/
def Obligations.TruncatingDivisionObeysTheDivisionLaw : Prop :=
  (∀ a b : Word, b ≠ 0 → ¬ (a = 0x8000 ∧ b = 0xFFFF) →
    (divOutput .truncate a b).toInt * b.toInt + (modOutput .truncate a b).toInt = a.toInt ∧
    (modOutput .truncate a b).toInt.natAbs < b.toInt.natAbs ∧
    ((modOutput .truncate a b).toInt = 0 ∨ ((modOutput .truncate a b).toInt < 0 ↔ a.toInt < 0))) ∧
  divOutput .truncate 0x8000 0xFFFF = 0x8000 ∧ modOutput .truncate 0x8000 0xFFFF = 0x0000

/-! ### Logic, extension, rotates, shifts -/

/-- R170 to R173: the bitwise commands. -/
def Obligations.BitwiseCommandsComplete : Prop :=
  ∀ (c : Conf) (s : State), Runs c s → OutputReady c (spAfterInputs c s) →
    exec (.and c) s = .next (completed c (input0Of c s &&& input1Of c s) (afterInputs c s)) ∧
    exec (.or c) s = .next (completed c (input0Of c s ||| input1Of c s) (afterInputs c s)) ∧
    exec (.xor c) s = .next (completed c (input0Of c s ^^^ input1Of c s) (afterInputs c s)) ∧
    exec (.not c) s = .next (completed c (0xFFFF - input0Of c s) (afterInputs c s))

/-- R174, R177: `SIGNEXT` sign-extends the low byte of input 0; `BSWAP` exchanges its two bytes. -/
def Obligations.SignextAndBswapComplete : Prop :=
  ∀ (c : Conf) (s : State), Runs c s → OutputReady c (spAfterInputs c s) →
    exec (.signext c) s = .next (completed c (((input0Of c s).setWidth 8).signExtend 16) (afterInputs c s)) ∧
    exec (.bswap c) s = .next (completed c (input0Of c s <<< 8 ||| input0Of c s >>> 8) (afterInputs c s))

/-- R175, R176, R178 to R180: the rotates move by one position through the 16 bits only; the shifts move by one position, and `ASR`
halves the signed reading, rounding toward minus infinity. -/
def Obligations.RotatesAndShiftsComplete : Prop :=
  ∀ (c : Conf) (s : State), Runs c s → OutputReady c (spAfterInputs c s) →
    exec (.rol c) s = .next (completed c ((input0Of c s).rotateLeft 1) (afterInputs c s)) ∧
    exec (.ror c) s = .next (completed c ((input0Of c s).rotateRight 1) (afterInputs c s)) ∧
    exec (.asr c) s = .next (completed c (BitVec.ofInt 16 ((input0Of c s).toInt / 2)) (afterInputs c s)) ∧
    exec (.lsl c) s = .next (completed c (BitVec.ofNat 16 (2 * (input0Of c s).toNat)) (afterInputs c s)) ∧
    exec (.lsr c) s = .next (completed c (BitVec.ofNat 16 ((input0Of c s).toNat / 2)) (afterInputs c s))

/-! ### Control -/

/-- DESIGN CHOICE of the spec (D2, D10, D11): `SETIP` jumps to the even target input 0, sets the bits of input 1 in `FR`, and
outputs the address of the next sequential instruction; an odd target stops, then a reserved bit of `FR`. -/
def Obligations.SetipCompletes : Prop :=
  ∀ (c : Conf) (s : State), Runs c s →
    (WordEven (input0Of c s) → (s.fr ||| input1Of c s) &&& frReservedMask s.cfg.variant = 0 →
      OutputReady c (spAfterInputs c s) →
      exec (.setip c) s = .next (completed c (nextIP c s)
        { afterInputs c s with ip := input0Of c s, fr := s.fr ||| input1Of c s })) ∧
    ((input0Of c s).getLsbD 0 = true → exec (.setip c) s = .fault .oddPointer) ∧
    (WordEven (input0Of c s) → (s.fr ||| input1Of c s) &&& frReservedMask s.cfg.variant ≠ 0 →
      exec (.setip c) s = .fault .frReserved)

/-- DESIGN CHOICE of the spec (D2, D3, D10, D11): `ADDIP` adds input 0, in bytes, to the address of the next sequential
instruction, sets the bits of input 1 in `FR`, and outputs that address; an odd target stops, then a reserved bit of `FR`. -/
def Obligations.AddipCompletes : Prop :=
  ∀ (c : Conf) (s : State), Runs c s →
    (WordEven (nextIP c s + input0Of c s) → (s.fr ||| input1Of c s) &&& frReservedMask s.cfg.variant = 0 →
      OutputReady c (spAfterInputs c s) →
      exec (.addip c) s = .next (completed c (nextIP c s)
        { afterInputs c s with ip := nextIP c s + input0Of c s, fr := s.fr ||| input1Of c s })) ∧
    ((nextIP c s + input0Of c s).getLsbD 0 = true → exec (.addip c) s = .fault .oddPointer) ∧
    (WordEven (nextIP c s + input0Of c s) → (s.fr ||| input1Of c s) &&& frReservedMask s.cfg.variant ≠ 0 →
      exec (.addip c) s = .fault .frReserved)

/-- DESIGN CHOICE of the spec (D9, D21): on variant II `INTR` sets the bits of input 0 in `IR` and outputs input 0, and stops where
it would set bit 3 or bits 15 to 8; on variant L it stops. -/
def Obligations.IntrCompletes : Prop :=
  ∀ (c : Conf) (s : State), Runs c s →
    (s.cfg.variant = .II → input0Of c s &&& 0xFF08 = 0 → OutputReady c (spAfterInputs c s) →
      exec (.intr c) s = .next (completed c (input0Of c s) { afterInputs c s with ir := s.ir ||| input0Of c s })) ∧
    (s.cfg.variant = .II → input0Of c s &&& 0xFF08 ≠ 0 → exec (.intr c) s = .fault .irReserved) ∧
    (s.cfg.variant = .L → exec (.intr c) s = .fault .intrWithoutIr)

/-! ### Frames: every instruction, every next state, every platform -/

/-- The memory frame. When an instruction answers a next state, every byte outside the command's own store (`SET`, `STORE8`,
`STORE16`, at the address computed from the inputs) and outside the output's push reads as before; an instruction that stores
nothing leaves all of memory as it was; and so does one that is skipped, or undone by the `BUS` pin (DESIGN CHOICE of the spec, D13;
log entry 16). -/
def Obligations.MemoryFrame : Prop :=
  ∀ (i : Instr) (s t : State), exec i s = .next t →
    (skipped i s = true ∨ undone i s = true ∨ storedAddresses i s = [] → t.mem = s.mem) ∧
    (s.mem.wf = true → ∀ x : Nat, x ∉ storedAddresses i s → t.mem.read x = s.mem.read x)

/-- The pointer frame. A skipped instruction moves `IP` alone, past its immediates; one that is undone by the `BUS` pin moves none of the
three (DESIGN CHOICE of the spec, D13; log entry 16); every other one leaves `BP` unless it is `BPSET`, which installs input 0, moves
`SP` as its inputs and its output say, `SPSET` from its input 0, and ends at the next sequential instruction or at its jump
target (D2, D3; log entry 14). -/
def Obligations.PointerFrame : Prop :=
  ∀ (i : Instr) (s t : State), exec i s = .next t →
    (skipped i s = true → t.bp = s.bp ∧ t.sp = s.sp ∧ t.ip = nextIP i.conf s) ∧
    (undone i s = true → t.bp = s.bp ∧ t.sp = s.sp ∧ t.ip = s.ip) ∧
    (skipped i s = false → undone i s = false →
      t.bp = (if isBpset i = true then input0Of i.conf s else s.bp) ∧
      t.sp = (if isSpset i = true then input0Of i.conf s else spAfterInputs i.conf s)
        - (if i.conf.out = .push then 2 else 0) ∧
      t.ip = targetIP i s)

/-- The flag frame. `CE`, the interrupt enables and the reserved bits are written only by `FRSET`, `SETIP` and `ADDIP`; `C` only by
these and by `ADD`, `SUB`, `MUL`; `Z` and `N` only by these three or under flag modification; and a skipped instruction, or one
undone by the `BUS` pin (DESIGN CHOICE of the spec, D13; log entry 16), writes no bit of `FR`. -/
def Obligations.FlagFrame : Prop :=
  ∀ (i : Instr) (s t : State), exec i s = .next t →
    (skipped i s = true ∨ undone i s = true → t.fr = s.fr) ∧
    (writesWholeFR i = false →
      (∀ n : Nat, 3 ≤ n → t.fr.getLsbD n = s.fr.getLsbD n) ∧
      (writesCarry i = false → t.fr.getLsbD 2 = s.fr.getLsbD 2) ∧
      (i.conf.flag = .no → t.fr.getLsbD 0 = s.fr.getLsbD 0 ∧ t.fr.getLsbD 1 = s.fr.getLsbD 1))

/-- The frame of the rest of the state. No instruction changes the configuration or the pins to come (log entries 2, 3, 8); only
`HALT` changes `halted` (D12); only `HALT`, `DIV`, `MOD` draw a free value (log entries 4, 5); only `INTR`, `DIV`, `MOD` change `IR`; a
skipped instruction changes none of them, and one undone by the `BUS` pin sets the pending bit 2 alone (DESIGN CHOICE of the
spec, D13; log entry 16). -/
def Obligations.SystemFrame : Prop :=
  ∀ (i : Instr) (s t : State), exec i s = .next t →
    t.cfg = s.cfg ∧ t.ext = s.ext ∧
    (skipped i s = true ∨ undone i s = true ∨ isHalt i = false → t.halted = s.halted) ∧
    (skipped i s = true ∨ undone i s = true ∨ mayDraw i = false → t.draws = s.draws) ∧
    (skipped i s = true → t.ir = s.ir) ∧
    (undone i s = true → t.ir = s.ir ||| 0x0004) ∧
    (undone i s = false → setsPending i = false → t.ir = s.ir)

/-! ### Interrupts and reset -/

/-- Trap entry, one interrupt at a time (DESIGN CHOICE of the spec: D20 and log entry 24 for the frame, D10 and log entry 13 for the odd
handler): a pending interrupt that is not masked is entered: `1 << n`, then `IP`, are pushed, `IP` is loaded from the table entry
at `2 * n`, its pending bit and, for `n` at least 4, its enable bit are cleared, a halt ends; and the handler finds the return
address on the stack top with the mask word below it. An odd table entry stops; and so does, on every platform, an odd `SP`,
which a reset can leave, as a misaligned access (R53, U16). -/
def Obligations.InterruptEntry : Prop :=
  ∀ (n : Nat) (s : State), n < 8 → (n < 4 ∨ s.fr.getLsbD n = true) →
    (s.sp.getLsbD 0 = true → serveInterrupt n s = .fault .misaligned) ∧
    (PlainPlatform s.cfg → WordEven s.sp →
      (WordEven (entered n s).ip → serveInterrupt n s = .ok (entered n s)) ∧
      ((entered n s).ip.getLsbD 0 = true → serveInterrupt n s = .fault .oddPointer)) ∧
    (s.mem.wf = true → WordEven s.sp →
      (entered n s).mem.readWord (entered n s).sp = s.ip ∧
      (entered n s).mem.readWord ((entered n s).sp + 2) = 1#16 <<< n)

/-- R203: a pending interrupt 4 to 7 whose enable bit is 0 is dropped: its pending bit is cleared and nothing else happens, so
that it is lost; interrupts 0 to 3 are entered whatever `FR` is. What the entry leaves is the spec's decision D20 (DESIGN CHOICE; log
entry 24); for `n = 0` it is the loop's own arm, which no run takes, since a reset comes first (R209). -/
def Obligations.MaskedInterruptIsDropped : Prop :=
  (∀ (n : Nat) (s : State), 4 ≤ n → n < 8 → s.fr.getLsbD n = false →
    serveInterrupt n s = .ok { s with ir := s.ir &&& ~~~ (1#16 <<< n) }) ∧
  ∀ (n : Nat) (s : State) (fr : Word), n < 4 → PlainPlatform s.cfg → WordEven s.sp → WordEven (entered n s).ip →
    serveInterrupt n { s with fr := fr } = .ok { entered n s with fr := fr }

/-- R205 with the spec's decisions D20 (the frame; log entry 24), D10 (the handlers; log entry 13) and D14 (the pins; log entry 8), all
DESIGN CHOICE, and with the bound of log entry 19 (DEDUCED): before the instruction, after the pins are taken in and the reset
test finds nothing, the `while IR != 0` loop runs. It is the scan of the 16 pending bits from the highest down, each served once;
it completes where every push and every handler address is even, on a plain platform; and whenever it completes each pending
interrupt was entered or dropped, in this order, and nothing is pending. -/
def Obligations.InterruptLoopIsTheDescendingScan : Prop :=
  (∀ s : State, s.cfg.variant = .II → s.resetRuns = false → boundary s = (interruptPhase (withPins s)).duringEntry) ∧
  (∀ s : State, interruptPhase s = serveDescending 0 16 s) ∧
  (∀ s : State, PlainPlatform s.cfg → WordEven s.sp → handlersEven 16 s = true →
    interruptPhase s = .ok (enterDescending 16 s)) ∧
  ∀ s t : State, interruptPhase s = .ok t → t = enterDescending 16 s ∧ t.ir = 0

/-- Priority between two interrupts (their frames are the spec's decision D20, DESIGN CHOICE; log entry 24): of two pending interrupts that are taken, the higher is entered first and the lower on top of it, so the lower one's
handler runs first and its return address is the higher one's handler. -/
def Obligations.LowestHandlerRunsFirst : Prop :=
  ∀ (m n : Nat) (s : State), 1 ≤ m → m < n → n < 8 → s.ir = 1#16 <<< m ||| 1#16 <<< n →
    (m < 4 ∨ s.fr.getLsbD m = true) → (n < 4 ∨ s.fr.getLsbD n = true) → PlainPlatform s.cfg → WordEven s.sp →
    s.mem.wf = true → WordEven (entered n s).ip → WordEven (entered m (entered n s)).ip →
    interruptPhase s = .ok (entered m (entered n s)) ∧
    (entered m (entered n s)).mem.readWord (entered m (entered n s)).sp = (entered n s).ip

/-- DESIGN CHOICE of the spec (D14; log entry 8) for the pins, and D20 (log entry 24) for the frame: with no reset and nothing pending, a boundary of variant II with the `NMI` pin alone enters interrupt
1; with the `IRQ` pin alone it enters interrupt 7 if that is enabled, and drops it otherwise; with no pin nothing happens. -/
def Obligations.PinsAreServedAtTheBoundary : Prop :=
  ∀ s : State, s.cfg.variant = .II → s.ir = 0 → PlainPlatform s.cfg → WordEven s.sp → (currentPins s).rst = false →
    ((currentPins s).nmi = true → (currentPins s).irq = false → WordEven (entered 1 s).ip →
      boundary s = .ok { entered 1 s with ext := s.ext.tail }) ∧
    ((currentPins s).nmi = false → (currentPins s).irq = true → s.fr.getLsbD 7 = true → WordEven (entered 7 s).ip →
      boundary s = .ok { entered 7 s with ext := s.ext.tail }) ∧
    ((currentPins s).nmi = false → (currentPins s).irq = true → s.fr.getLsbD 7 = false →
      boundary s = .ok { s with ext := s.ext.tail }) ∧
    ((currentPins s).nmi = false → (currentPins s).irq = false → boundary s = .ok { s with ext := s.ext.tail })

/-- R207, after an entry whose frame is the spec's decision D20 (DESIGN CHOICE; log entry 24): the return from an interrupt is
`setip [i0:pop] [i1:pop]`, word 0x4078. After the entry into interrupt `n` it gives the
`IP`, `SP` and `BP` of the interrupted program, and sets bit `n` of `FR`, which for `n` at least 4 is the enable bit that entry
cleared; it restores no other bit of `FR`. -/
def Obligations.InterruptReturnResumes : Prop :=
  encodeWord interruptReturn = 0x4078 ∧
  ∀ (n : Nat) (s : State), 1 ≤ n → n < 8 → (n < 4 ∨ s.fr.getLsbD n = true) → s.cfg.variant = .II →
    PlainPlatform s.cfg → s.mem.wf = true → WordEven s.sp → WordEven s.ip → WordEven (entered n s).ip →
    s.fr &&& frReservedMask .II = 0 →
    exec interruptReturn (entered n s) =
      .next { s with
        mem := entryMemory n s, fr := s.fr ||| 1#16 <<< n, ir := s.ir &&& ~~~ (1#16 <<< n), halted := false }

/-- DESIGN CHOICE of the spec (D22; log entry 6) for `SP`, `BP` and `halted`: a reset of variant II loads `IP` from the word at 0x0000,
clears `FR` and `IR`, discarding what is pending, ends a halt, pushes nothing, and leaves `SP` and `BP` free whatever the draws; an odd
reset vector stops. -/
def Obligations.ResetSequenceOfII : Prop :=
  ∀ s : State, s.cfg.variant = .II → s.resetRuns = true → PlainPlatform s.cfg →
    (WordEven (s.mem.readWord 0x0000) →
      boundary s = .ok { s with
        ip := s.mem.readWord 0x0000, fr := 0x0000, ir := 0x0000, halted := false
        sp := Config.freeWord s.draws, bp := Config.freeWord (s.draws + 1), draws := s.draws + 2
        ext := s.ext.tail }) ∧
    ((s.mem.readWord 0x0000).getLsbD 0 = true → boundary s = .fault .oddPointer)

/-- DESIGN CHOICE of the spec (D21, D22; log entry 6): on variant L the boundary with `RST` sets `IP` and `FR` to 0, ends a halt and leaves `SP`
and `BP` free whatever the draws; without `RST` nothing happens, whatever the other pins and platform. -/
def Obligations.BoundaryOfL : Prop :=
  ∀ s : State, s.cfg.variant = .L →
    ((currentPins s).rst = true →
      boundary s = .ok { s with
        ip := 0x0000, fr := 0x0000, halted := false
        sp := Config.freeWord s.draws, bp := Config.freeWord (s.draws + 1), draws := s.draws + 2
        ext := s.ext.tail }) ∧
    ((currentPins s).rst = false → boundary s = .ok { s with ext := s.ext.tail })

/-- DESIGN CHOICE of the spec (D22): from every power-on of variant II, whatever `SP`, `BP`, `IP`, the memory image and the pins are, the
first step executes the instruction at the address stored at 0x0000, with `FR` and `IR` zero. -/
def Obligations.PowerOnEntersAtTheResetVector : Prop :=
  ∀ (cfg : Config) (sp bp ip : Word) (mem : Memory) (ext : List Pins), cfg.variant = .II → PlainPlatform cfg →
    WordEven (mem.readWord 0x0000) →
    step (State.powerOn cfg sp bp ip mem ext) =
      executeOne { sp := Config.freeWord 0, bp := Config.freeWord 1, ip := mem.readWord 0x0000, fr := 0, ir := 0
                   halted := false, mem := mem, cfg := cfg, ext := ext.tail, draws := 2 }

/-- DESIGN CHOICE of the spec (D13; log entries 9, 16): the `BUS` pin undoes the instruction it hits and makes interrupt 2 pending, in the
state at the instruction's own address, whichever access of the instruction part it answers: the fetch of the word, or one of
input 0, input 1, the command and the push of the output, those before it made and, for the push, the command's own checks
passed; a store made before it is undone too. In the reset sequence, and at every access of an interrupt entry after any number of
interrupts served at the same boundary, it stops (U15). -/
def Obligations.BusFaultUndoesTheInstruction : Prop :=
  (∀ s b : State, boundary s = .ok b → b.halted = false → WordEven b.ip → busFault b.cfg b.ip .word .code = true →
    step s = .next { b with ir := b.ir ||| 0x0004 }) ∧
  (∀ (i : Instr) (s : State) (before later : List MemAccess) (x : MemAccess), skipped i s = false →
    instrAccesses i s = before ++ x :: later → (∀ y ∈ before, y.isPlain s.cfg) → x.hitsBus s.cfg →
    (i.conf.out = .push → later = [] → commandChecks i s) →
    exec i s = .next { s with ir := s.ir ||| 0x0004 }) ∧
  (∀ s : State, s.cfg.variant = .II → s.resetRuns = true → busFault s.cfg 0x0000 .word .code = true →
    boundary s = .fault .busErrorDuringEntry) ∧
  ∀ (n : Nat) (s t : State) (before later : List MemAccess) (x : MemAccess), s.cfg.variant = .II → s.resetRuns = false →
    n < 16 → serveDescending (n + 1) (15 - n) (withPins s) = .ok t → t.ir.getLsbD n = true →
    (n < 4 ∨ t.fr.getLsbD n = true) → entryAccesses n t = before ++ x :: later → (∀ y ∈ before, y.isPlain s.cfg) →
    x.hitsBus s.cfg →
    boundary s = .fault .busErrorDuringEntry ∧ step s = .fault .busErrorDuringEntry

/-- DESIGN CHOICE of the spec (D12): a halted machine stays halted and does nothing at a boundary where every request is masked; the requests
are dropped. On variant L nothing but `RST` wakes it. -/
def Obligations.MaskedRequestsDoNotWake : Prop :=
  (∀ s : State, s.cfg.variant = .II → s.halted = true → s.resetRuns = false →
    (∀ n : Nat, n < 16 → (s.ir ||| pinBits (currentPins s)).getLsbD n = true → 4 ≤ n ∧ s.fr.getLsbD n = false) →
    step s = .next { s with ir := 0, ext := s.ext.tail }) ∧
  ∀ s : State, s.cfg.variant = .L → s.halted = true → (currentPins s).rst = false →
    step s = .next { s with ext := s.ext.tail }

/-- DESIGN CHOICE of the spec (D23; log entries 8, 27): a step that leaves the machine halted ends the run, on variant II where no pin will
be signalled, on variant L always; and a run that has ended goes on for ever without a change but for the pins consumed, on
variant L until `RST` is signalled, whatever the other pins are. -/
def Obligations.FinishedRunsStay : Prop :=
  (∀ s t : State, step s = .next t → t.halted = true →
    (t.cfg.variant = .II → ∀ p ∈ t.ext, p = Pins.quiet) → t.Finished) ∧
  ∀ (k : Nat) (s : State), s.Finished → (s.cfg.variant = .L → ∀ p ∈ s.ext.take k, p.rst = false) →
    core.run k s = .next { s with ext := s.ext.drop k }

/-- DESIGN CHOICE of the spec (D12, D13): the machine becomes halted only by executing a `HALT`: its condition holds (R115), and the `BUS`
pin does not undo it. -/
def Obligations.OnlyHaltHalts : Prop :=
  ∀ s t : State, step s = .next t → t.halted = true →
    s.halted = true ∨ ∃ b c, boundary s = .ok b ∧ fetchInstr b = .ok (.halt c) ∧
      isExecuted c.cond b.fr = true ∧ undone (.halt c) b = false

/-! ### Invariants -/

/-- DEDUCED: every step keeps the invariant: the memory in canonical form, `IP` even, the reserved bits of `FR` and `IR` zero, no
`IR` on variant L. -/
def Obligations.StepKeepsInvariant : Prop :=
  ∀ s t : State, s.Inv → step s = .next t → t.Inv

/-- The invariant holds at power-on (log entries 1, 2, 7 name the values that are the model's). -/
def Obligations.ResetHasInvariant : Prop := State.reset.Inv

/-- DEDUCED (D10): outside a reset, which leaves them free, every step keeps `SP` and `BP` even. -/
def Obligations.StepKeepsPointersEven : Prop :=
  ∀ s t : State, s.resetRuns = false → WordEven s.sp → WordEven s.bp → step s = .next t →
    WordEven t.sp ∧ WordEven t.bp

/-- The model's choice (log entries 2, 3, 8): no step changes the configuration, and every step consumes one boundary's pins. -/
def Obligations.StepKeepsConfiguration : Prop :=
  ∀ s t : State, step s = .next t → t.cfg = s.cfg ∧ t.ext = s.ext.tail
end

