-- ==== Sys2Proof/Laws/Bits.lean ====
section
/-! SUPPORT. Bits of words: even addresses, the two bytes of a word, single bits written. -/

namespace Sys2Proof.Machine

theorem even_iff (v : Word) : v.getLsbD 0 = false ↔ v.toNat % 2 = 0 := by
  rw [BitVec.getLsbD, Nat.testBit_zero]
  simp

theorem even_add_two (v : Word) : (v + 2).getLsbD 0 = v.getLsbD 0 := by
  rw [BitVec.getLsbD, BitVec.getLsbD, Nat.testBit_zero, Nat.testBit_zero, BitVec.toNat_add]
  simp

theorem even_sub_two (v : Word) : (v - 2).getLsbD 0 = v.getLsbD 0 := by
  have h := even_add_two (v - 2)
  rwa [BitVec.sub_add_cancel, eq_comm] at h

/-- The second byte of an aligned word lies at the next address, without wrapping (R62). -/
theorem toNat_succ_of_even {v : Word} (h : v.getLsbD 0 = false) : (v + 1).toNat = v.toNat + 1 := by
  rw [even_iff] at h
  rw [BitVec.toNat_add]
  have := v.isLt
  simp
  omega

theorem toNat_succ_ne (v : Word) : (v + 1).toNat ≠ v.toNat := by
  rw [BitVec.toNat_add]
  have := v.isLt
  simp
  omega

@[simp] theorem loByte_wordOfBytes (lo hi : Byte) : loByte (wordOfBytes lo hi) = lo := by
  apply BitVec.eq_of_getLsbD_eq
  intro i hi'
  simp only [loByte, wordOfBytes, BitVec.getLsbD_extractLsb', BitVec.getLsbD_append]
  simp [hi']

@[simp] theorem hiByte_wordOfBytes (lo hi : Byte) : hiByte (wordOfBytes lo hi) = hi := by
  apply BitVec.eq_of_getLsbD_eq
  intro i hi'
  simp only [hiByte, wordOfBytes, BitVec.getLsbD_extractLsb', BitVec.getLsbD_append]
  simp [hi']

@[simp] theorem wordOfBytes_loByte_hiByte (v : Word) : wordOfBytes (loByte v) (hiByte v) = v := by
  apply BitVec.eq_of_getLsbD_eq
  intro i hi
  simp only [wordOfBytes, loByte, hiByte, BitVec.getLsbD_append, BitVec.getLsbD_extractLsb']
  by_cases h : i < 8
  · simp [h]
  · simp only [h, decide_false]
    rw [show 8 + (i - 8) = i by omega]
    simp; omega

theorem getLsbD_bitMask (n i : Nat) (hi : i < 16) : (bitMask n).getLsbD i = decide (i = n) := by
  simp only [bitMask, BitVec.getLsbD_shiftLeft, BitVec.getLsbD_one, hi]
  by_cases h : i < n
  · simp [h]; omega
  · simp [h]; omega

/-- What `v[n] <- b` does to every bit. -/
theorem getLsbD_putBit (v : Word) (n : Nat) (b : Bool) (i : Nat) (hi : i < 16) :
    (putBit v n b).getLsbD i = if i = n then b else v.getLsbD i := by
  cases b <;> simp only [putBit, Bool.false_eq_true, if_false, if_true, BitVec.getLsbD_or, BitVec.getLsbD_and,
    BitVec.getLsbD_not, getLsbD_bitMask n i hi, hi] <;> by_cases h : i = n <;> simp [h]

end Sys2Proof.Machine
end

