-- ==== Sys2Proof/Laws/Memory.lean ====
section
/-! SUPPORT. The memory: a read after a write, and the canonical form kept by every write. -/

namespace Sys2Proof.Machine

/-- A bound below which a memory lists nothing is a bound on every listed address. -/
theorem read_of_wfAbove {m : Memory} {lo a : Nat} (h : Memory.wfAbove (some lo) m = true) (ha : a ≤ lo) :
    m.read a = unlistedByte := by
  induction m generalizing lo with
  | nil => rfl
  | cons e m ih =>
    obtain ⟨k, v⟩ := e
    simp only [Memory.wfAbove, Bool.and_eq_true, decide_eq_true_eq, Option.mem_some_iff, forall_eq'] at h
    simp only [Memory.read]
    rw [if_neg (by omega), ih h.2 (by omega)]

/-- The canonical form above a bound is the canonical form above every lower bound. -/
theorem wfAbove_mono {m : Memory} {lo lo' : Option Nat} (h : Memory.wfAbove lo m = true)
    (hlo : ∀ l' ∈ lo', ∃ l ∈ lo, l' ≤ l) : Memory.wfAbove lo' m = true := by
  cases m with
  | nil => rfl
  | cons e m =>
    obtain ⟨k, v⟩ := e
    simp only [Memory.wfAbove, Bool.and_eq_true, decide_eq_true_eq] at h ⊢
    refine ⟨⟨⟨fun l' hl' => ?_, h.1.1.2⟩, h.1.2⟩, h.2⟩
    obtain ⟨l, hl, hle⟩ := hlo l' hl'
    exact Nat.lt_of_le_of_lt hle (h.1.1.1 l hl)

/-- A write keeps the canonical form above a bound that lies below its address. -/
theorem write_wfAbove {m : Memory} {lo : Option Nat} {a : Nat} (b : Byte) (h : Memory.wfAbove lo m = true)
    (ha : a < 65536) (hlo : ∀ l ∈ lo, l < a) : Memory.wfAbove lo (m.write a b) = true := by
  induction m generalizing lo with
  | nil =>
    simp only [Memory.write]
    split
    · rfl
    · rename_i hb
      simp only [Memory.wfAbove, Bool.and_eq_true, decide_eq_true_eq, bne_iff_ne, ne_eq]
      exact ⟨⟨⟨hlo, ha⟩, hb⟩, trivial⟩
  | cons e m ih =>
    obtain ⟨k, v⟩ := e
    have h0 := h
    simp only [Memory.wfAbove, Bool.and_eq_true, decide_eq_true_eq, bne_iff_ne, ne_eq] at h
    simp only [Memory.write]
    split
    · rename_i hk
      simp only [Memory.wfAbove, Bool.and_eq_true, decide_eq_true_eq, bne_iff_ne, ne_eq]
      exact ⟨h.1, ih h.2 (by simpa using hk)⟩
    · split
      · rename_i hk1 hk2
        subst hk2
        split
        · exact wfAbove_mono h.2 fun l hl => ⟨k, rfl, Nat.le_of_lt (hlo l hl)⟩
        · rename_i hb
          simp only [Memory.wfAbove, Bool.and_eq_true, decide_eq_true_eq, bne_iff_ne, ne_eq]
          exact ⟨⟨⟨hlo, ha⟩, hb⟩, h.2⟩
      · rename_i hk1 hk2
        split
        · exact h0
        · rename_i hb
          simp only [Memory.wfAbove, Bool.and_eq_true, decide_eq_true_eq, bne_iff_ne, ne_eq, Option.mem_some_iff,
            forall_eq']
          exact ⟨⟨⟨hlo, ha⟩, hb⟩, ⟨⟨by omega, h.1.1.2⟩, h.1.2⟩, h.2⟩

/-- A write keeps the canonical form. -/
theorem write_wf {m : Memory} {a : Nat} (b : Byte) (h : m.wf = true) (ha : a < 65536) : (m.write a b).wf = true :=
  write_wfAbove b h ha (by simp)

theorem writeByte_wf {m : Memory} (a : Word) (v : Byte) (h : m.wf = true) : (m.writeByte a v).wf = true :=
  write_wf v h a.isLt

theorem writeWord_wf {m : Memory} (a v : Word) (h : m.wf = true) : (m.writeWord a v).wf = true :=
  write_wf _ (write_wf _ h a.isLt) (a + 1).isLt

theorem storeBytes_wf (bs : List Byte) (a : Word) {m : Memory} (h : m.wf = true) : (storeBytes bs a m).wf = true := by
  induction bs generalizing a m with
  | nil => exact h
  | cons b bs ih => exact ih (a + 1) (writeByte_wf a b h)

/-- A write changes its own byte and no other, in every memory whose addresses rise. -/
theorem read_write_above {m : Memory} {lo : Option Nat} (a x : Nat) (b : Byte) (h : Memory.wfAbove lo m = true) :
    (m.write a b).read x = if x = a then b else m.read x := by
  induction m generalizing lo with
  | nil =>
    simp only [Memory.write]
    split
    · rename_i hb; simp [Memory.read, hb]
    · simp [Memory.read, eq_comm]
  | cons e m ih =>
    obtain ⟨k, v⟩ := e
    simp only [Memory.wfAbove, Bool.and_eq_true, decide_eq_true_eq, bne_iff_ne, ne_eq] at h
    simp only [Memory.write]
    split
    · rename_i hk
      simp only [Memory.read, ih h.2]
      by_cases hx : k = x
      · subst hx; simp; omega
      · simp [hx]
    · split
      · rename_i hk1 hk2
        subst hk2
        split
        · rename_i hb
          simp only [Memory.read]
          by_cases hx : k = x
          · subst hx; simp [read_of_wfAbove h.2 (Nat.le_refl _), hb]
          · simp only [if_neg hx, if_neg (Ne.symm hx)]
        · simp only [Memory.read]
          by_cases hx : k = x
          · simp [hx]
          · simp [hx]; intro h'; exact absurd h'.symm hx
      · rename_i hk1 hk2
        split
        · rename_i hb
          by_cases hx : x = a
          · subst hx
            simp only [Memory.read, if_neg hk2, if_true, hb]
            exact read_of_wfAbove h.2 (by omega)
          · simp [hx]
        · simp only [Memory.read]
          by_cases hx : a = x
          · simp [hx]
          · simp [hx]; intro h'; exact absurd h'.symm hx

/-- A write changes its own byte and no other. -/
theorem read_write {m : Memory} (a x : Nat) (b : Byte) (h : m.wf = true) :
    (m.write a b).read x = if x = a then b else m.read x := read_write_above a x b h

/-- A byte store at byte level. -/
theorem read_writeByte {m : Memory} (a : Word) (v : Byte) (x : Nat) (h : m.wf = true) :
    (m.writeByte a v).read x = if x = a.toNat then v else m.read x := read_write _ _ _ h

/-- A word store at byte level: the low byte at the address, the high byte above it. -/
theorem read_writeWord {m : Memory} (a v : Word) (x : Nat) (h : m.wf = true) :
    (m.writeWord a v).read x =
      if x = (a + 1).toNat then hiByte v else if x = a.toNat then loByte v else m.read x := by
  rw [Memory.writeWord, read_write _ _ _ (write_wf _ h a.isLt), read_write _ _ _ h]

/-- A word read back is the word stored. -/
theorem readWord_writeWord {m : Memory} (a v : Word) (h : m.wf = true) : (m.writeWord a v).readWord a = v := by
  have hne := toNat_succ_ne a
  rw [Memory.readWord, read_writeWord _ _ _ h, read_writeWord _ _ _ h]
  rw [if_neg (Ne.symm hne), if_pos rfl, if_pos rfl, wordOfBytes_loByte_hiByte]

/-- A word store at another even address leaves a word as it was. -/
theorem readWord_writeWord_of_ne {m : Memory} {a b : Word} (v : Word) (h : m.wf = true) (ha : a.getLsbD 0 = false)
    (hb : b.getLsbD 0 = false) (hne : a ≠ b) : (m.writeWord a v).readWord b = m.readWord b := by
  have ha' := toNat_succ_of_even ha
  have hb' := toNat_succ_of_even hb
  have hn : a.toNat ≠ b.toNat := fun h => hne (BitVec.eq_of_toNat_eq h)
  rw [even_iff] at ha hb
  simp only [Memory.readWord, read_writeWord _ _ _ h]
  rw [if_neg (by omega), if_neg (by omega), if_neg (by omega), if_neg (by omega)]

end Sys2Proof.Machine
end

