-- ==== Sys2Proof/Laws/State.lean ====
section
/-! SUPPORT. One lemma per field per update of the state. -/

namespace Sys2Proof.Machine

variable (s : State)

@[simp] theorem setSP_sp (v : Word) : (s.setSP v).sp = v := rfl
@[simp] theorem setSP_bp (v : Word) : (s.setSP v).bp = s.bp := rfl
@[simp] theorem setSP_ip (v : Word) : (s.setSP v).ip = s.ip := rfl
@[simp] theorem setSP_fr (v : Word) : (s.setSP v).fr = s.fr := rfl
@[simp] theorem setSP_ir (v : Word) : (s.setSP v).ir = s.ir := rfl
@[simp] theorem setSP_halted (v : Word) : (s.setSP v).halted = s.halted := rfl
@[simp] theorem setSP_mem (v : Word) : (s.setSP v).mem = s.mem := rfl
@[simp] theorem setSP_cfg (v : Word) : (s.setSP v).cfg = s.cfg := rfl
@[simp] theorem setSP_ext (v : Word) : (s.setSP v).ext = s.ext := rfl
@[simp] theorem setSP_draws (v : Word) : (s.setSP v).draws = s.draws := rfl

@[simp] theorem setBP_sp (v : Word) : (s.setBP v).sp = s.sp := rfl
@[simp] theorem setBP_bp (v : Word) : (s.setBP v).bp = v := rfl
@[simp] theorem setBP_ip (v : Word) : (s.setBP v).ip = s.ip := rfl
@[simp] theorem setBP_fr (v : Word) : (s.setBP v).fr = s.fr := rfl
@[simp] theorem setBP_ir (v : Word) : (s.setBP v).ir = s.ir := rfl
@[simp] theorem setBP_halted (v : Word) : (s.setBP v).halted = s.halted := rfl
@[simp] theorem setBP_mem (v : Word) : (s.setBP v).mem = s.mem := rfl
@[simp] theorem setBP_cfg (v : Word) : (s.setBP v).cfg = s.cfg := rfl
@[simp] theorem setBP_ext (v : Word) : (s.setBP v).ext = s.ext := rfl
@[simp] theorem setBP_draws (v : Word) : (s.setBP v).draws = s.draws := rfl

@[simp] theorem setIP_sp (v : Word) : (s.setIP v).sp = s.sp := rfl
@[simp] theorem setIP_bp (v : Word) : (s.setIP v).bp = s.bp := rfl
@[simp] theorem setIP_ip (v : Word) : (s.setIP v).ip = v := rfl
@[simp] theorem setIP_fr (v : Word) : (s.setIP v).fr = s.fr := rfl
@[simp] theorem setIP_ir (v : Word) : (s.setIP v).ir = s.ir := rfl
@[simp] theorem setIP_halted (v : Word) : (s.setIP v).halted = s.halted := rfl
@[simp] theorem setIP_mem (v : Word) : (s.setIP v).mem = s.mem := rfl
@[simp] theorem setIP_cfg (v : Word) : (s.setIP v).cfg = s.cfg := rfl
@[simp] theorem setIP_ext (v : Word) : (s.setIP v).ext = s.ext := rfl
@[simp] theorem setIP_draws (v : Word) : (s.setIP v).draws = s.draws := rfl

@[simp] theorem setFR_sp (v : Word) : (s.setFR v).sp = s.sp := rfl
@[simp] theorem setFR_bp (v : Word) : (s.setFR v).bp = s.bp := rfl
@[simp] theorem setFR_ip (v : Word) : (s.setFR v).ip = s.ip := rfl
@[simp] theorem setFR_fr (v : Word) : (s.setFR v).fr = v := rfl
@[simp] theorem setFR_ir (v : Word) : (s.setFR v).ir = s.ir := rfl
@[simp] theorem setFR_halted (v : Word) : (s.setFR v).halted = s.halted := rfl
@[simp] theorem setFR_mem (v : Word) : (s.setFR v).mem = s.mem := rfl
@[simp] theorem setFR_cfg (v : Word) : (s.setFR v).cfg = s.cfg := rfl
@[simp] theorem setFR_ext (v : Word) : (s.setFR v).ext = s.ext := rfl
@[simp] theorem setFR_draws (v : Word) : (s.setFR v).draws = s.draws := rfl

@[simp] theorem setIR_sp (v : Word) : (s.setIR v).sp = s.sp := rfl
@[simp] theorem setIR_bp (v : Word) : (s.setIR v).bp = s.bp := rfl
@[simp] theorem setIR_ip (v : Word) : (s.setIR v).ip = s.ip := rfl
@[simp] theorem setIR_fr (v : Word) : (s.setIR v).fr = s.fr := rfl
@[simp] theorem setIR_ir (v : Word) : (s.setIR v).ir = v := rfl
@[simp] theorem setIR_halted (v : Word) : (s.setIR v).halted = s.halted := rfl
@[simp] theorem setIR_mem (v : Word) : (s.setIR v).mem = s.mem := rfl
@[simp] theorem setIR_cfg (v : Word) : (s.setIR v).cfg = s.cfg := rfl
@[simp] theorem setIR_ext (v : Word) : (s.setIR v).ext = s.ext := rfl
@[simp] theorem setIR_draws (v : Word) : (s.setIR v).draws = s.draws := rfl

@[simp] theorem setHalted_sp (v : Bool) : (s.setHalted v).sp = s.sp := rfl
@[simp] theorem setHalted_bp (v : Bool) : (s.setHalted v).bp = s.bp := rfl
@[simp] theorem setHalted_ip (v : Bool) : (s.setHalted v).ip = s.ip := rfl
@[simp] theorem setHalted_fr (v : Bool) : (s.setHalted v).fr = s.fr := rfl
@[simp] theorem setHalted_ir (v : Bool) : (s.setHalted v).ir = s.ir := rfl
@[simp] theorem setHalted_halted (v : Bool) : (s.setHalted v).halted = v := rfl
@[simp] theorem setHalted_mem (v : Bool) : (s.setHalted v).mem = s.mem := rfl
@[simp] theorem setHalted_cfg (v : Bool) : (s.setHalted v).cfg = s.cfg := rfl
@[simp] theorem setHalted_ext (v : Bool) : (s.setHalted v).ext = s.ext := rfl
@[simp] theorem setHalted_draws (v : Bool) : (s.setHalted v).draws = s.draws := rfl

@[simp] theorem setMem_sp (v : Memory) : (s.setMem v).sp = s.sp := rfl
@[simp] theorem setMem_bp (v : Memory) : (s.setMem v).bp = s.bp := rfl
@[simp] theorem setMem_ip (v : Memory) : (s.setMem v).ip = s.ip := rfl
@[simp] theorem setMem_fr (v : Memory) : (s.setMem v).fr = s.fr := rfl
@[simp] theorem setMem_ir (v : Memory) : (s.setMem v).ir = s.ir := rfl
@[simp] theorem setMem_halted (v : Memory) : (s.setMem v).halted = s.halted := rfl
@[simp] theorem setMem_mem (v : Memory) : (s.setMem v).mem = v := rfl
@[simp] theorem setMem_cfg (v : Memory) : (s.setMem v).cfg = s.cfg := rfl
@[simp] theorem setMem_ext (v : Memory) : (s.setMem v).ext = s.ext := rfl
@[simp] theorem setMem_draws (v : Memory) : (s.setMem v).draws = s.draws := rfl

@[simp] theorem setExt_sp (v : List Pins) : (s.setExt v).sp = s.sp := rfl
@[simp] theorem setExt_bp (v : List Pins) : (s.setExt v).bp = s.bp := rfl
@[simp] theorem setExt_ip (v : List Pins) : (s.setExt v).ip = s.ip := rfl
@[simp] theorem setExt_fr (v : List Pins) : (s.setExt v).fr = s.fr := rfl
@[simp] theorem setExt_ir (v : List Pins) : (s.setExt v).ir = s.ir := rfl
@[simp] theorem setExt_halted (v : List Pins) : (s.setExt v).halted = s.halted := rfl
@[simp] theorem setExt_mem (v : List Pins) : (s.setExt v).mem = s.mem := rfl
@[simp] theorem setExt_cfg (v : List Pins) : (s.setExt v).cfg = s.cfg := rfl
@[simp] theorem setExt_ext (v : List Pins) : (s.setExt v).ext = v := rfl
@[simp] theorem setExt_draws (v : List Pins) : (s.setExt v).draws = s.draws := rfl

@[simp] theorem setDraws_sp (v : Nat) : (s.setDraws v).sp = s.sp := rfl
@[simp] theorem setDraws_bp (v : Nat) : (s.setDraws v).bp = s.bp := rfl
@[simp] theorem setDraws_ip (v : Nat) : (s.setDraws v).ip = s.ip := rfl
@[simp] theorem setDraws_fr (v : Nat) : (s.setDraws v).fr = s.fr := rfl
@[simp] theorem setDraws_ir (v : Nat) : (s.setDraws v).ir = s.ir := rfl
@[simp] theorem setDraws_halted (v : Nat) : (s.setDraws v).halted = s.halted := rfl
@[simp] theorem setDraws_mem (v : Nat) : (s.setDraws v).mem = s.mem := rfl
@[simp] theorem setDraws_cfg (v : Nat) : (s.setDraws v).cfg = s.cfg := rfl
@[simp] theorem setDraws_ext (v : Nat) : (s.setDraws v).ext = s.ext := rfl
@[simp] theorem setDraws_draws (v : Nat) : (s.setDraws v).draws = v := rfl

end Sys2Proof.Machine
end

