-- ==== Sys2Proof/Laws/Ops.lean ====
section
/-! SUPPORT. One lemma per shared operation that says all it can do: when it answers a value, and which. -/

namespace Sys2Proof.Machine

/-! ### Sequencing -/

section sequencing

variable {α β : Type}

@[simp] theorem bind_of_ok (a : α) (f : α → Result β) : (Result.ok a).bind f = f a := rfl
@[simp] theorem bind_of_bus (f : α → Result β) : (Result.bus : Result α).bind f = .bus := rfl
@[simp] theorem bind_of_fault (e : Fault) (f : α → Result β) : (Result.fault e : Result α).bind f = .fault e := rfl
@[simp] theorem bind_of_refused (e : Refusal) (f : α → Result β) : (Result.refused e : Result α).bind f = .refused e := rfl

theorem bind_eq_ok {r : Result α} {f : α → Result β} {b : β} :
    r.bind f = .ok b ↔ ∃ a, r = .ok a ∧ f a = .ok b := by
  cases r <;> simp [Result.bind]

/-- A check followed by a value. -/
theorem bind_check_eq_ok {r : Result Unit} {b c : β} :
    (r.bind fun _ => .ok b) = .ok c ↔ r = .ok () ∧ c = b := by
  cases r <;> simp [Result.bind, eq_comm]

/-- A sequence ends with the `BUS` pin in its first part, or in its second. -/
theorem bind_eq_bus {r : Result α} {f : α → Result β} : r.bind f = .bus ↔ r = .bus ∨ ∃ a, r = .ok a ∧ f a = .bus := by
  cases r <;> simp [Result.bind]

/-- A check followed by a value ends with the `BUS` pin exactly in the check. -/
theorem bind_check_eq_bus {r : Result Unit} {b : β} : (r.bind fun _ => .ok b) = .bus ↔ r = .bus := by
  cases r <;> simp [Result.bind]

theorem duringEntry_eq_ok {r : Result α} {a : α} : r.duringEntry = .ok a ↔ r = .ok a := by
  cases r <;> simp [Result.duringEntry]

theorem duringEntry_ne_bus (r : Result α) : r.duringEntry ≠ .bus := by
  cases r <;> simp [Result.duringEntry]

theorem finishFrom_eq_next {s t : State} {r : Result State} :
    finishFrom s r = .next t ↔ r = .ok t ∨ (r = .bus ∧ t = raise 2 s) := by
  cases r <;> simp [finishFrom, eq_comm]

end sequencing

/-! ### Accesses -/

/-- An access is made exactly when it is aligned, not answered with `BUS`, and not a device's. -/
theorem access_eq_ok {cfg : Config} {a : Word} {w : Width} {k : AccessKind} {u : Unit} :
    access cfg a w k = .ok u ↔
      (w = .word → WordEven a) ∧ busFault cfg a w k = false ∧ touchesDevice cfg a w = false := by
  unfold access
  cases w <;> cases h : a.getLsbD 0 <;> cases h1 : busFault cfg a _ k <;> cases h2 : touchesDevice cfg a _ <;>
    simp_all [WordEven]

/-- A misaligned 16-bit access stops, on every platform (R53). -/
theorem access_misaligned {cfg : Config} {a : Word} {k : AccessKind} (h : a.getLsbD 0 = true) :
    access cfg a .word k = .fault .misaligned := by
  simp [access, h]

/-- The `BUS` pin answers an access that is aligned and that the platform's rules name (R211). -/
theorem access_eq_bus {cfg : Config} {a : Word} {w : Width} {k : AccessKind} :
    access cfg a w k = .bus ↔ (w = .word → WordEven a) ∧ busFault cfg a w k = true := by
  unfold access
  cases w <;> cases h : a.getLsbD 0 <;> cases h1 : busFault cfg a _ k <;> cases h2 : touchesDevice cfg a _ <;>
    simp_all [WordEven]

/-- A listed access that the `BUS` pin answers, in the form in which the machine makes it. -/
theorem hitsBus_iff {cfg : Config} {x : MemAccess} :
    x.hitsBus cfg ↔ access cfg x.address x.width x.kind = .bus := access_eq_bus.symm

theorem access_plain_word {cfg : Config} {a : Word} {k : AccessKind} (hp : PlainPlatform cfg) (h : WordEven a) :
    access cfg a .word k = .ok () :=
  access_eq_ok.2 ⟨fun _ => h, hp.1 _ _ _, by simp [touchesDevice, hp.2]⟩

theorem access_plain_byte {cfg : Config} {a : Word} {k : AccessKind} (hp : PlainPlatform cfg) :
    access cfg a .byte k = .ok () :=
  access_eq_ok.2 ⟨by simp, hp.1 _ _ _, by simp [touchesDevice, hp.2]⟩

/-- The spec's default platform is plain. -/
theorem plainPlatform_default (v : Variant) : PlainPlatform (Config.default v) := by
  constructor <;> simp [busFault, isDevice, Config.default]

theorem memRead8_eq_ok {a : Word} {s : State} {v : Byte} :
    memRead8 a s = .ok v ↔ access s.cfg a .byte .data = .ok () ∧ v = s.mem.readByte a := bind_check_eq_ok

theorem memRead16_eq_ok {k : AccessKind} {a : Word} {s : State} {v : Word} :
    memRead16 k a s = .ok v ↔ access s.cfg a .word k = .ok () ∧ v = s.mem.readWord a := by
  exact bind_check_eq_ok

theorem memWrite8_eq_ok {a : Word} {v : Byte} {s t : State} :
    memWrite8 a v s = .ok t ↔ access s.cfg a .byte .data = .ok () ∧ t = s.setMem (s.mem.writeByte a v) := by
  exact bind_check_eq_ok

theorem memWrite16_eq_ok {a v : Word} {s t : State} :
    memWrite16 a v s = .ok t ↔ access s.cfg a .word .data = .ok () ∧ t = s.setMem (s.mem.writeWord a v) := by
  exact bind_check_eq_ok

/-! The four accesses end with the `BUS` pin exactly where the platform answers so. -/

theorem memRead8_eq_bus {a : Word} {s : State} : memRead8 a s = .bus ↔ access s.cfg a .byte .data = .bus :=
  bind_check_eq_bus

theorem memRead16_eq_bus {k : AccessKind} {a : Word} {s : State} :
    memRead16 k a s = .bus ↔ access s.cfg a .word k = .bus := bind_check_eq_bus

theorem memWrite8_eq_bus {a : Word} {v : Byte} {s : State} :
    memWrite8 a v s = .bus ↔ access s.cfg a .byte .data = .bus := bind_check_eq_bus

theorem memWrite16_eq_bus {a v : Word} {s : State} :
    memWrite16 a v s = .bus ↔ access s.cfg a .word .data = .bus := bind_check_eq_bus

/-! On a plain platform an aligned access is made; on every platform a misaligned one stops. -/

section plain

variable {s : State} {k : AccessKind} {a : Word}

theorem memRead8_plain (hp : PlainPlatform s.cfg) : memRead8 a s = .ok (s.mem.readByte a) :=
  memRead8_eq_ok.2 ⟨access_plain_byte hp, rfl⟩

theorem memRead16_plain (hp : PlainPlatform s.cfg) (h : WordEven a) : memRead16 k a s = .ok (s.mem.readWord a) :=
  memRead16_eq_ok.2 ⟨access_plain_word hp h, rfl⟩

theorem memWrite8_plain (v : Byte) (hp : PlainPlatform s.cfg) :
    memWrite8 a v s = .ok (s.setMem (s.mem.writeByte a v)) :=
  memWrite8_eq_ok.2 ⟨access_plain_byte hp, rfl⟩

theorem memWrite16_plain (v : Word) (hp : PlainPlatform s.cfg) (h : WordEven a) :
    memWrite16 a v s = .ok (s.setMem (s.mem.writeWord a v)) :=
  memWrite16_eq_ok.2 ⟨access_plain_word hp h, rfl⟩

theorem memRead16_misaligned (h : a.getLsbD 0 = true) : memRead16 k a s = .fault .misaligned := by
  simp only [memRead16, access_misaligned h, bind_of_fault]

theorem memWrite16_misaligned (v : Word) (h : a.getLsbD 0 = true) : memWrite16 a v s = .fault .misaligned := by
  simp only [memWrite16, access_misaligned h, bind_of_fault]

theorem push_plain (v : Word) (hp : PlainPlatform s.cfg) (h : WordEven s.sp) :
    push v s = .ok ((s.setSP (s.sp - 2)).setMem (s.mem.writeWord (s.sp - 2) v)) :=
  memWrite16_plain (s := s.setSP (s.sp - 2)) v hp (by rw [WordEven, even_sub_two]; exact h)

end plain

/-! ### Stack -/

theorem push_eq_ok {v : Word} {s t : State} :
    push v s = .ok t ↔ access s.cfg (s.sp - 2) .word .data = .ok () ∧
      t = (s.setSP (s.sp - 2)).setMem (s.mem.writeWord (s.sp - 2) v) := by
  simp [push, memWrite16_eq_ok]

theorem peek_eq_ok {s : State} {v : Word} :
    peek s = .ok v ↔ access s.cfg s.sp .word .data = .ok () ∧ v = s.mem.readWord s.sp := memRead16_eq_ok

theorem pop_eq_ok {s : State} {p : Word × State} :
    pop s = .ok p ↔ access s.cfg s.sp .word .data = .ok () ∧ p = (s.mem.readWord s.sp, s.setSP (s.sp + 2)) := by
  simp only [pop, bind_eq_ok, peek_eq_ok, Result.ok.injEq]
  constructor
  · rintro ⟨_, ⟨h, rfl⟩, rfl⟩; exact ⟨h, rfl⟩
  · rintro ⟨h, rfl⟩; exact ⟨_, ⟨h, rfl⟩, rfl⟩

/-! ### Registers and free values -/

theorem evenPointer_eq_ok {v w : Word} : evenPointer v = .ok w ↔ WordEven v ∧ w = v := by
  unfold evenPointer
  cases h : v.getLsbD 0 <;> simp only [WordEven, h] <;> simp [eq_comm]

theorem evenPointer_even {v : Word} (h : WordEven v) : evenPointer v = .ok v := evenPointer_eq_ok.2 ⟨h, rfl⟩

theorem evenPointer_odd {v : Word} (h : v.getLsbD 0 = true) : evenPointer v = .fault .oddPointer := by
  simp only [evenPointer, h, if_true]

theorem writeFR_eq_ok {v : Word} {s t : State} :
    writeFR v s = .ok t ↔ v &&& frReservedMask s.cfg.variant = 0 ∧ t = s.setFR v := by
  unfold writeFR
  split
  · rename_i h
    simp only [h, Result.ok.injEq, true_and, eq_comm]
  · rename_i h
    simp only [h, false_and, reduceCtorEq]

theorem jumpAndSetFlags_eq_ok {target fb : Word} {s t : State} :
    jumpAndSetFlags target fb s = .ok t ↔
      WordEven target ∧ (s.fr ||| fb) &&& frReservedMask s.cfg.variant = 0 ∧
        t = (s.setFR (s.fr ||| fb)).setIP target := by
  simp only [jumpAndSetFlags, bind_eq_ok, evenPointer_eq_ok, writeFR_eq_ok]
  constructor
  · rintro ⟨_, ⟨h, rfl⟩, _, ⟨h', rfl⟩, h2⟩
    exact ⟨h, h', (Result.ok.inj h2).symm⟩
  · rintro ⟨h, h', rfl⟩
    exact ⟨_, ⟨h, rfl⟩, _, ⟨h', rfl⟩, rfl⟩

@[simp] theorem draw_fst (s : State) : (draw s).1 = Config.freeWord s.draws := rfl
@[simp] theorem draw_snd (s : State) : (draw s).2 = s.setDraws (s.draws + 1) := rfl

/-- After a reset `SP` and `BP` are the next two free values, and nothing else changes. -/
theorem redrawPointers_eq (s : State) :
    redrawPointers s =
      { s with sp := Config.freeWord s.draws, bp := Config.freeWord (s.draws + 1), draws := s.draws + 2 } := rfl

/-! ### Interrupts -/

/-- Everything an entry does when it completes, in the state in which its pending bit is already cleared. -/
theorem enterInterrupt_eq_ok {n : Nat} {s t : State} (h : enterInterrupt n s = .ok t) :
    access s.cfg (s.sp - 2) .word .data = .ok () ∧ access s.cfg (s.sp - 2 - 2) .word .data = .ok () ∧
    access s.cfg (BitVec.ofNat 16 (2 * n)) .word .code = .ok () ∧ WordEven t.ip ∧
      t = { s with
            sp := s.sp - 2 - 2
            mem := (s.mem.writeWord (s.sp - 2) (bitMask n)).writeWord (s.sp - 2 - 2) s.ip
            ip := ((s.mem.writeWord (s.sp - 2) (bitMask n)).writeWord (s.sp - 2 - 2) s.ip).readWord
              (BitVec.ofNat 16 (2 * n))
            fr := if 4 ≤ n then putBit s.fr n false else s.fr
            halted := false } := by
  simp only [enterInterrupt, bind_eq_ok, push_eq_ok, memRead16_eq_ok, evenPointer_eq_ok] at h
  obtain ⟨_, ⟨h1, rfl⟩, _, ⟨h2, rfl⟩, _, ⟨h3, rfl⟩, _, ⟨h4, rfl⟩, h5⟩ := h
  simp only [Result.ok.injEq] at h5
  subst h5
  refine ⟨h1, h2, h3, ?_, ?_⟩
  · unfold disableTaken
    split <;> exact h4
  · unfold disableTaken
    split <;> rfl

/-- One pass of the interrupt loop: a masked request is dropped, any other is entered. -/
theorem serveInterrupt_cases {n : Nat} {s t : State} (h : serveInterrupt n s = .ok t) :
    (isTaken n s.fr = false ∧ t = s.setIR (putBit s.ir n false)) ∨
      (isTaken n s.fr = true ∧ enterInterrupt n (s.setIR (putBit s.ir n false)) = .ok t) := by
  unfold serveInterrupt at h
  split at h
  · exact .inr ⟨‹_›, h⟩
  · rename_i hm
    exact .inl ⟨Bool.eq_false_iff.2 hm, (Result.ok.inj h).symm⟩

/-- A pass clears its own pending bit and no other (R202). -/
theorem serveInterrupt_ir {n : Nat} {s t : State} (h : serveInterrupt n s = .ok t) : t.ir = putBit s.ir n false := by
  rcases serveInterrupt_cases h with ⟨_, rfl⟩ | ⟨_, h⟩
  · rfl
  · rw [(enterInterrupt_eq_ok h).2.2.2.2]; rfl

theorem highestSetBitBelow_le (n : Nat) (w : Word) : highestSetBitBelow n w ≤ n - 1 := by
  induction n with
  | zero => exact Nat.le_refl _
  | succ n ih =>
    simp only [highestSetBitBelow]
    split <;> omega

theorem highestSetBit_lt (w : Word) : highestSetBit w < 16 := by
  have := highestSetBitBelow_le 16 w
  rw [highestSetBit]; omega

/-- What every pass keeps, the interrupt loop keeps: the induction over the loop, once. -/
theorem interruptLoop_keeps {P : State → Prop} (hp : ∀ n s t, n < 16 → P s → serveInterrupt n s = .ok t → P t)
    {k : Nat} {s t : State} (hs : P s) (h : interruptLoop k s = .ok t) : P t := by
  induction k generalizing s with
  | zero => simp only [interruptLoop, Result.ok.injEq] at h; exact h ▸ hs
  | succ k ih =>
    simp only [interruptLoop] at h
    split at h
    · simp only [Result.ok.injEq] at h; exact h ▸ hs
    · obtain ⟨u, hu, h⟩ := bind_eq_ok.1 h
      exact ih (hp _ _ _ (highestSetBit_lt _) hs hu) h

/-! ### Reset and the boundary -/

/-- Everything the reset sequence of variant II does when it completes (R250). -/
theorem resetII_eq_ok {s t : State} :
    resetII s = .ok t ↔ access s.cfg 0x0000 .word .code = .ok () ∧ WordEven (s.mem.readWord 0x0000) ∧
      t = { s with
            ip := s.mem.readWord 0x0000, fr := 0, ir := 0, halted := false
            sp := Config.freeWord s.draws, bp := Config.freeWord (s.draws + 1), draws := s.draws + 2 } := by
  simp only [resetII, bind_eq_ok, memRead16_eq_ok, evenPointer_eq_ok, redrawPointers_eq]
  constructor
  · rintro ⟨_, ⟨h1, rfl⟩, _, ⟨h2, rfl⟩, h⟩
    exact ⟨h1, h2, (Result.ok.inj h).symm⟩
  · rintro ⟨h1, h2, rfl⟩
    exact ⟨_, ⟨h1, rfl⟩, _, ⟨h2, rfl⟩, rfl⟩

/-- The boundary of variant II: the pins, then the reset sequence or nothing, then the interrupt loop. -/
theorem boundaryII_eq_ok {s b : State} (h : boundaryII s = .ok b) :
    ∃ u, ((s.ir ||| pinBits (currentPins s)).getLsbD 0 = true ∧
          resetII ((s.setIR (s.ir ||| pinBits (currentPins s))).setExt s.ext.tail) = .ok u ∨
        (s.ir ||| pinBits (currentPins s)).getLsbD 0 = false ∧
          u = (s.setIR (s.ir ||| pinBits (currentPins s))).setExt s.ext.tail) ∧
      interruptPhase u = .ok b := by
  simp only [boundaryII, duringEntry_eq_ok, bind_eq_ok] at h
  obtain ⟨u, hu, h⟩ := h
  refine ⟨u, ?_, h⟩
  split at hu
  · exact .inl ⟨‹_›, hu⟩
  · rename_i hc
    exact .inr ⟨Bool.eq_false_iff.2 hc, (Result.ok.inj hu).symm⟩

/-- Whatever a step answers with a next state, its boundary completed. -/
theorem step_eq_next {s t : State} (h : step s = .next t) :
    ∃ b, boundary s = .ok b ∧
      ((b.halted = true ∧ t = b) ∨
        (b.halted = false ∧ ((∃ i, fetchInstr b = .ok i ∧ exec i b = .next t) ∨
          (fetchInstr b = .bus ∧ t = raise 2 b)))) := by
  unfold step cycle at h
  split at h
  · rename_i b hb
    refine ⟨b, hb, ?_⟩
    unfold afterBoundary executeOne at h
    cases hh : b.halted
    · simp only [hh, Bool.false_eq_true, if_false] at h
      refine .inr ⟨rfl, ?_⟩
      split at h
      · exact .inl ⟨_, ‹_›, h⟩
      · exact .inr ⟨‹_›, (Host.Outcome.next.inj h).symm⟩
      · cases h
      · cases h
    · simp only [hh, if_true, Host.Outcome.next.injEq] at h
      exact .inl ⟨rfl, h.symm⟩
  · cases h
  · cases h
  · cases h

end Sys2Proof.Machine
end

