-- ==== Sys2Proof/Laws/Wrapper.lean ====
section
/-! SUPPORT. The wrapper shared by all commands: what it gives a command, what it does with the output, and the three ways
in which it answers a next state. -/

namespace Sys2Proof.Machine

/-! ### The closed forms, field by field -/

@[simp] theorem afterInputs_sp (c : Conf) (s : State) : (afterInputs c s).sp = spAfterInputs c s := rfl
@[simp] theorem afterInputs_bp (c : Conf) (s : State) : (afterInputs c s).bp = s.bp := rfl
@[simp] theorem afterInputs_ip (c : Conf) (s : State) : (afterInputs c s).ip = nextIP c s := rfl
@[simp] theorem afterInputs_fr (c : Conf) (s : State) : (afterInputs c s).fr = s.fr := rfl
@[simp] theorem afterInputs_ir (c : Conf) (s : State) : (afterInputs c s).ir = s.ir := rfl
@[simp] theorem afterInputs_halted (c : Conf) (s : State) : (afterInputs c s).halted = s.halted := rfl
@[simp] theorem afterInputs_mem (c : Conf) (s : State) : (afterInputs c s).mem = s.mem := rfl
@[simp] theorem afterInputs_cfg (c : Conf) (s : State) : (afterInputs c s).cfg = s.cfg := rfl
@[simp] theorem afterInputs_ext (c : Conf) (s : State) : (afterInputs c s).ext = s.ext := rfl
@[simp] theorem afterInputs_draws (c : Conf) (s : State) : (afterInputs c s).draws = s.draws := rfl

@[simp] theorem completed_bp (c : Conf) (out : Word) (t : State) : (completed c out t).bp = t.bp := rfl
@[simp] theorem completed_ip (c : Conf) (out : Word) (t : State) : (completed c out t).ip = t.ip := rfl
@[simp] theorem completed_ir (c : Conf) (out : Word) (t : State) : (completed c out t).ir = t.ir := rfl
@[simp] theorem completed_halted (c : Conf) (out : Word) (t : State) : (completed c out t).halted = t.halted := rfl
@[simp] theorem completed_cfg (c : Conf) (out : Word) (t : State) : (completed c out t).cfg = t.cfg := rfl
@[simp] theorem completed_ext (c : Conf) (out : Word) (t : State) : (completed c out t).ext = t.ext := rfl
@[simp] theorem completed_draws (c : Conf) (out : Word) (t : State) : (completed c out t).draws = t.draws := rfl

/-- The address of a frame slot is even exactly when `BP` is. -/
theorem frameAddress_parity (a : Word) (s : State) : (frameAddress a s).getLsbD 0 = s.bp.getLsbD 0 := by
  rw [frameAddress, BitVec.getLsbD, BitVec.getLsbD, Nat.testBit_zero, Nat.testBit_zero, BitVec.toNat_add,
    BitVec.toNat_mul]
  simp

/-- The command of an instruction that runs sees a plain platform. -/
theorem plain_afterInputs {c : Conf} {s : State} (h : Runs c s) : PlainPlatform (afterInputs c s).cfg := h.inputs.plain

/-! ### Flags -/

/-- The flag stage's two bit writes are the closed form of R121. -/
theorem frWithZN_eq_znOf (fr out : Word) : frWithZN fr out = znOf fr out := by
  have hN : (decide ((0x8000 : Word) ≤ out)) = out.getLsbD 15 := by
    rw [show out.getLsbD 15 = out.msb from rfl, BitVec.msb_eq_decide]
    exact decide_eq_decide.2 BitVec.le_def
  have hZ : (out == 0) = decide (out = 0) := rfl
  have key : ∀ z n : Bool, putBit (putBit fr 0 z) 1 n =
      (fr &&& 0xFFFC) ||| (if z then 0x0001 else 0) ||| (if n then 0x0002 else 0) := by
    intro z n
    apply BitVec.eq_of_getLsbD_eq
    intro i hi
    rw [getLsbD_putBit _ _ _ _ hi, getLsbD_putBit _ _ _ _ hi]
    cases z <;> cases n <;> simp only [BitVec.getLsbD_or, BitVec.getLsbD_and] <;>
      (rcases i with _ | _ | i <;> [simp; simp; skip]) <;>
      (have : i < 14 := by omega
       interval_cases i <;> simp)
  rw [frWithZN, key, znOf, hZ, ← hN]
  simp

/-- `FR.C <- b` is the closed form of R160. -/
theorem putBit_two_eq_withCarry (fr : Word) (b : Bool) : putBit fr 2 b = withCarry fr b := by
  apply BitVec.eq_of_getLsbD_eq
  intro i hi
  rw [getLsbD_putBit _ _ _ _ hi, withCarry]
  cases b <;> simp only [BitVec.getLsbD_or, BitVec.getLsbD_and] <;> interval_cases i <;> simp

/-! ### Inputs -/

/-- The value of one input in a state in which `IP` and `SP` have not moved for it (R118). -/
def inputValue (m : InputMode) (s : State) : Word :=
  match m with
  | .zero => 0
  | .imm => s.mem.readWord s.ip
  | .peek => s.mem.readWord s.sp
  | .pop => s.mem.readWord s.sp

/-- Everything that obtaining one input does (R118). -/
theorem fetchInput_eq_ok {m : InputMode} {s : State} {p : Word × State} (h : fetchInput m s = .ok p) :
    p.1 = inputValue m s ∧
    p.2 = { s with ip := if m = .imm then s.ip + 2 else s.ip, sp := if m = .pop then s.sp + 2 else s.sp } := by
  cases m
  case zero => simp only [fetchInput, Result.ok.injEq] at h; subst h; exact ⟨rfl, rfl⟩
  case imm =>
    simp only [fetchInput, bind_eq_ok, memRead16_eq_ok, Result.ok.injEq] at h
    obtain ⟨_, ⟨_, rfl⟩, rfl⟩ := h
    exact ⟨rfl, rfl⟩
  case peek =>
    simp only [fetchInput, bind_eq_ok, peek_eq_ok, Result.ok.injEq] at h
    obtain ⟨_, ⟨_, rfl⟩, rfl⟩ := h
    exact ⟨rfl, rfl⟩
  case pop =>
    simp only [fetchInput, pop_eq_ok] at h
    obtain ⟨_, rfl⟩ := h
    exact ⟨rfl, rfl⟩

/-- When one input can be obtained. -/
theorem fetchInput_ready {m : InputMode} {s : State} (hp : PlainPlatform s.cfg) (hi : WordEven s.ip)
    (hs : readsStack m = true → WordEven s.sp) : ∃ p, fetchInput m s = .ok p := by
  cases m
  case zero => exact ⟨_, rfl⟩
  case imm => exact ⟨_, by simp only [fetchInput, memRead16, access_plain_word hp hi, bind_of_ok]; rfl⟩
  case peek => exact ⟨_, by simp only [fetchInput, peek, memRead16, access_plain_word hp (hs rfl), bind_of_ok]; rfl⟩
  case pop => exact ⟨_, by simp only [fetchInput, pop, peek, memRead16, access_plain_word hp (hs rfl), bind_of_ok]; rfl⟩

/-- The inputs of an instruction and the state that its command sees, from the state at the instruction's address. -/
theorem fetchInputs_eq_ok {c : Conf} {s : State} {r : Word × Word × State}
    (h : fetchInputs c (s.setIP (s.ip + 2)) = .ok r) :
    r = (input0Of c s, input1Of c s, afterInputs c s) := by
  simp only [fetchInputs, bind_eq_ok] at h
  obtain ⟨p, hp, q, hq, h⟩ := h
  simp only [Result.ok.injEq] at h
  subst h
  obtain ⟨hp1, hp2⟩ := fetchInput_eq_ok hp
  obtain ⟨hq1, hq2⟩ := fetchInput_eq_ok hq
  rw [hp1, hq1, hq2, hp2]
  obtain ⟨co, m0, m1, fl, ou⟩ := c
  cases m0 <;> cases m1 <;>
    simp [inputValue, input0Of, input1Of, afterInputs, nextIP, spAfterInputs, secondStackAddress, State.setIP, BitVec.add_assoc]

/-- The inputs can be obtained where `InputsReady` says so. -/
theorem fetchInputs_ready {c : Conf} {s : State} (h : InputsReady c s) :
    fetchInputs c (s.setIP (s.ip + 2)) = .ok (input0Of c s, input1Of c s, afterInputs c s) := by
  obtain ⟨hp, hi, hs⟩ := h
  have hi' : WordEven (s.ip + 2) := by rw [WordEven, even_add_two]; exact hi
  obtain ⟨p, h0⟩ := fetchInput_ready (m := c.in0) (s := s.setIP (s.ip + 2)) hp hi' (fun h => hs (by simp [h]))
  have hp2 := (fetchInput_eq_ok h0).2
  obtain ⟨q, h1⟩ := fetchInput_ready (m := c.in1) (s := p.2) (by rw [hp2]; exact hp)
    (by
      rw [hp2]
      show WordEven (if c.in0 = .imm then s.ip + 2 + 2 else s.ip + 2)
      split
      · rw [WordEven, even_add_two]; exact hi'
      · exact hi')
    (fun h => by
      have hsp := hs (by simp [h])
      rw [hp2]
      show WordEven (if c.in0 = .pop then s.sp + 2 else s.sp)
      split
      · rw [WordEven, even_add_two]; exact hsp
      · exact hsp)
  have hall : fetchInputs c (s.setIP (s.ip + 2)) = .ok (p.1, q.1, q.2) := by
    simp only [fetchInputs, h0, h1, bind_of_ok]
  rw [hall, fetchInputs_eq_ok hall]

/-! ### Output -/

/-- Everything that the output and flag stages do. -/
theorem emitOutput_eq_ok {c : Conf} {out : Word} {t u : State} (h : emitOutput c.out out t = .ok u) :
    modifyFlags c.flag out u = completed c out t := by
  obtain ⟨co, m0, m1, fl, ou⟩ := c
  cases ou
  · simp only [emitOutput, Result.ok.injEq] at h
    subst h
    cases fl <;> simp [modifyFlags, completed, frWithZN_eq_znOf, State.setFR]
  · simp only [emitOutput, push_eq_ok] at h
    obtain ⟨_, rfl⟩ := h
    cases fl <;> simp [modifyFlags, completed, frWithZN_eq_znOf, State.setFR, State.setSP, State.setMem]

/-- The output can be pushed where `OutputReady` says so. -/
theorem emitOutput_ready {c : Conf} {out : Word} {t : State} (hp : PlainPlatform t.cfg) (h : OutputReady c t.sp) :
    ∃ u, emitOutput c.out out t = .ok u := by
  cases ho : c.out
  · exact ⟨_, rfl⟩
  · have he : WordEven (t.sp - 2) := by rw [WordEven, even_sub_two]; exact h ho
    exact ⟨_, push_eq_ok.2 ⟨access_plain_word hp he, rfl⟩⟩

/-! ### The stages together -/

/-- Whatever the stages answer with a state, the command ran on the inputs and its output went through the last two stages. -/
theorem runStages_eq_ok {c : Conf} {cmd : Command} {s t : State}
    (h : runStages c cmd (s.setIP (s.ip + 2)) = .ok t) :
    ∃ out u, cmd (input0Of c s) (input1Of c s) (afterInputs c s) = .ok (out, u) ∧ t = completed c out u := by
  simp only [runStages, bind_eq_ok] at h
  obtain ⟨r, hr, ⟨out, u⟩, hcmd, v, hv, h⟩ := h
  rw [fetchInputs_eq_ok hr] at hcmd
  refine ⟨out, u, hcmd, ?_⟩
  rw [← emitOutput_eq_ok hv]
  exact (Result.ok.inj h).symm

/-- The three ways in which an instruction answers a next state: it was skipped (R115), it completed (R112), or a bus fault
undid it (R211). -/
theorem runCommand_cases {c : Conf} {cmd : Command} {s t : State} (h : runCommand c cmd s = .next t) :
    (isExecuted c.cond s.fr = false ∧ t = skipImmediates c (s.setIP (s.ip + 2))) ∨
    (isExecuted c.cond s.fr = true ∧
      ∃ out u, cmd (input0Of c s) (input1Of c s) (afterInputs c s) = .ok (out, u) ∧ t = completed c out u) ∨
    (isExecuted c.cond s.fr = true ∧ runStages c cmd (s.setIP (s.ip + 2)) = .bus ∧ t = raise 2 s) := by
  unfold runCommand at h
  split at h
  · rename_i hx
    rcases finishFrom_eq_next.1 h with h | ⟨h, ht⟩
    · exact .inr (.inl ⟨hx, runStages_eq_ok h⟩)
    · exact .inr (.inr ⟨hx, h, ht⟩)
  · rename_i hx
    exact .inl ⟨Bool.eq_false_iff.2 hx, (Host.Outcome.next.inj h).symm⟩

/-- An instruction whose condition is false. -/
theorem runCommand_skipped {c : Conf} {cmd : Command} {s : State} (h : isExecuted c.cond s.fr = false) :
    runCommand c cmd s = .next (skipImmediates c (s.setIP (s.ip + 2))) := by
  simp [runCommand, h]

/-- An executed instruction completes when its inputs can be obtained, its command runs, and its output can be pushed. -/
theorem runCommand_completes {c : Conf} {cmd : Command} {s u : State} {out : Word}
    (hx : isExecuted c.cond s.fr = true) (hin : InputsReady c s)
    (hcmd : cmd (input0Of c s) (input1Of c s) (afterInputs c s) = .ok (out, u)) (hcfg : u.cfg = s.cfg)
    (hout : OutputReady c u.sp) : runCommand c cmd s = .next (completed c out u) := by
  obtain ⟨v, hv⟩ := emitOutput_ready (out := out) (hcfg ▸ hin.plain : PlainPlatform u.cfg) hout
  simp only [runCommand, hx, if_true, runStages, fetchInputs_ready hin, bind_of_ok, hcmd, hv, emitOutput_eq_ok hv, finishFrom]

/-- An executed instruction stops as its command stops. -/
theorem runCommand_faults {c : Conf} {cmd : Command} {s : State} {f : Fault}
    (hx : isExecuted c.cond s.fr = true) (hin : InputsReady c s)
    (hcmd : cmd (input0Of c s) (input1Of c s) (afterInputs c s) = .fault f) : runCommand c cmd s = .fault f := by
  simp only [runCommand, hx, if_true, runStages, fetchInputs_ready hin, bind_of_ok, hcmd, bind_of_fault, finishFrom]

end Sys2Proof.Machine
end

