-- ==== Sys2Proof/Laws/Instr.lean ====
section
/-! SUPPORT. Every instruction is the shared wrapper around its command, so that what the wrapper can do is said once for all of
them. -/

namespace Sys2Proof.Machine

/-- The command that an instruction runs. -/
def commandOf : Instr → Command
  | .copy _ => copyCommand
  | .get _ => getCommand
  | .set _ => setCommand
  | .store8 _ => store8Command
  | .store16 _ => store16Command
  | .load8 _ => load8Command
  | .load16 _ => load16Command
  | .cpuid _ => cpuidCommand
  | .halt _ => haltCommand
  | .frget _ => frgetCommand
  | .frset _ => frsetCommand
  | .bpget _ => bpgetCommand
  | .bpset _ => bpsetCommand
  | .spget _ => spgetCommand
  | .spset _ => spsetCommand
  | .add _ => addCommand
  | .sub _ => subCommand
  | .mul _ => mulCommand
  | .div _ => divCommand
  | .mod _ => modCommand
  | .and _ => pureCommand fun a b => a &&& b
  | .or _ => pureCommand fun a b => a ||| b
  | .xor _ => pureCommand fun a b => a ^^^ b
  | .not _ => pureCommand fun a _ => ~~~ a
  | .signext _ => pureCommand fun a _ => signExtendByte a
  | .rol _ => pureCommand fun a _ => rotateLeftOne a
  | .ror _ => pureCommand fun a _ => rotateRightOne a
  | .bswap _ => pureCommand fun a _ => swapBytes a
  | .asr _ => pureCommand fun a _ => shiftRightArith a
  | .lsl _ => pureCommand fun a _ => shiftLeftOne a
  | .lsr _ => pureCommand fun a _ => shiftRightLogic a
  | .setip _ => setipCommand
  | .addip _ => addipCommand
  | .intr _ => intrCommand

theorem exec_eq_runCommand (i : Instr) (s : State) : exec i s = runCommand i.conf (commandOf i) s := by
  cases i <;> rfl

end Sys2Proof.Machine
end

