-- ==== Sys2Proof/Laws/PerInstr.lean ====
section
/-! SUPPORT. Facts about every instruction as syntax, one lemma per constructor. -/

namespace Sys2Proof.Laws

/-- Each field of an instruction's word stands where R81 puts it, and bit 15 is 0. -/
def EncodedFields.Statement (i : Instr) : Prop :=
  (encodeWord i).getLsbD 15 = false ∧ bits (encodeWord i) 9 6 = i.command ∧
    bits (encodeWord i) 8 1 = i.conf.out.code ∧ bits (encodeWord i) 7 1 = i.conf.flag.code ∧
    bits (encodeWord i) 5 2 = i.conf.in1.code ∧ bits (encodeWord i) 3 2 = i.conf.in0.code ∧
    bits (encodeWord i) 0 3 = i.conf.cond.code

/-- The fields of a word assembled from its fields (R81). -/
theorem encodeFields_fields (cmd : BitVec 6) (c : Conf) :
    (encodeFields cmd c).getLsbD 15 = false ∧ bits (encodeFields cmd c) 9 6 = cmd ∧
      bits (encodeFields cmd c) 8 1 = c.out.code ∧ bits (encodeFields cmd c) 7 1 = c.flag.code ∧
      bits (encodeFields cmd c) 5 2 = c.in1.code ∧ bits (encodeFields cmd c) 3 2 = c.in0.code ∧
      bits (encodeFields cmd c) 0 3 = c.cond.code := by
  refine ⟨?_, ?_, ?_, ?_, ?_, ?_, ?_⟩
  · simp only [encodeFields, BitVec.getLsbD_append]
    simp
  all_goals
    apply BitVec.eq_of_getLsbD_eq
    intro i hi
    simp only [bits, encodeFields, BitVec.getLsbD_extractLsb', BitVec.getLsbD_append]
    interval_cases i <;> simp

theorem EncodedFields.copy (c : Conf) : EncodedFields.Statement (.copy c) := encodeFields_fields _ c
theorem EncodedFields.get (c : Conf) : EncodedFields.Statement (.get c) := encodeFields_fields _ c
theorem EncodedFields.set (c : Conf) : EncodedFields.Statement (.set c) := encodeFields_fields _ c
theorem EncodedFields.store8 (c : Conf) : EncodedFields.Statement (.store8 c) := encodeFields_fields _ c
theorem EncodedFields.store16 (c : Conf) : EncodedFields.Statement (.store16 c) := encodeFields_fields _ c
theorem EncodedFields.load8 (c : Conf) : EncodedFields.Statement (.load8 c) := encodeFields_fields _ c
theorem EncodedFields.load16 (c : Conf) : EncodedFields.Statement (.load16 c) := encodeFields_fields _ c
theorem EncodedFields.cpuid (c : Conf) : EncodedFields.Statement (.cpuid c) := encodeFields_fields _ c
theorem EncodedFields.halt (c : Conf) : EncodedFields.Statement (.halt c) := encodeFields_fields _ c
theorem EncodedFields.frget (c : Conf) : EncodedFields.Statement (.frget c) := encodeFields_fields _ c
theorem EncodedFields.frset (c : Conf) : EncodedFields.Statement (.frset c) := encodeFields_fields _ c
theorem EncodedFields.bpget (c : Conf) : EncodedFields.Statement (.bpget c) := encodeFields_fields _ c
theorem EncodedFields.bpset (c : Conf) : EncodedFields.Statement (.bpset c) := encodeFields_fields _ c
theorem EncodedFields.spget (c : Conf) : EncodedFields.Statement (.spget c) := encodeFields_fields _ c
theorem EncodedFields.spset (c : Conf) : EncodedFields.Statement (.spset c) := encodeFields_fields _ c
theorem EncodedFields.add (c : Conf) : EncodedFields.Statement (.add c) := encodeFields_fields _ c
theorem EncodedFields.sub (c : Conf) : EncodedFields.Statement (.sub c) := encodeFields_fields _ c
theorem EncodedFields.mul (c : Conf) : EncodedFields.Statement (.mul c) := encodeFields_fields _ c
theorem EncodedFields.div (c : Conf) : EncodedFields.Statement (.div c) := encodeFields_fields _ c
theorem EncodedFields.mod (c : Conf) : EncodedFields.Statement (.mod c) := encodeFields_fields _ c
theorem EncodedFields.and (c : Conf) : EncodedFields.Statement (.and c) := encodeFields_fields _ c
theorem EncodedFields.or (c : Conf) : EncodedFields.Statement (.or c) := encodeFields_fields _ c
theorem EncodedFields.xor (c : Conf) : EncodedFields.Statement (.xor c) := encodeFields_fields _ c
theorem EncodedFields.not (c : Conf) : EncodedFields.Statement (.not c) := encodeFields_fields _ c
theorem EncodedFields.signext (c : Conf) : EncodedFields.Statement (.signext c) := encodeFields_fields _ c
theorem EncodedFields.rol (c : Conf) : EncodedFields.Statement (.rol c) := encodeFields_fields _ c
theorem EncodedFields.ror (c : Conf) : EncodedFields.Statement (.ror c) := encodeFields_fields _ c
theorem EncodedFields.bswap (c : Conf) : EncodedFields.Statement (.bswap c) := encodeFields_fields _ c
theorem EncodedFields.asr (c : Conf) : EncodedFields.Statement (.asr c) := encodeFields_fields _ c
theorem EncodedFields.lsl (c : Conf) : EncodedFields.Statement (.lsl c) := encodeFields_fields _ c
theorem EncodedFields.lsr (c : Conf) : EncodedFields.Statement (.lsr c) := encodeFields_fields _ c
theorem EncodedFields.setip (c : Conf) : EncodedFields.Statement (.setip c) := encodeFields_fields _ c
theorem EncodedFields.addip (c : Conf) : EncodedFields.Statement (.addip c) := encodeFields_fields _ c
theorem EncodedFields.intr (c : Conf) : EncodedFields.Statement (.intr c) := encodeFields_fields _ c

end Sys2Proof.Laws
end

