-- ==== Sys2Proof/Tests/Slice0.lean ====
section
/-! SUPPORT. The model's own tests. Expected results are the vectors of `95_test_vectors.md` (V2.1 to V2.10) or computed by
hand from the rules named; and for every statement with hypotheses a state that meets them. -/

namespace Sys2Proof.Tests

open Sys2Proof Sys2Proof.Machine

/-! ### Well-formedness: each check refuses an ill-formed term -/

def plainConf : Conf := { cond := .always, in0 := .zero, in1 := .zero, flag := .no, out := .discard }
def immConf : Conf := { plainConf with in0 := .imm }

/-- `INTR` is not an instruction of variant L (R187). -/
theorem test_wf_refuses_intr_on_l : FullInstr.wellFormed .L ⟨.intr plainConf, []⟩ = false := by decide
/-- An Immediate input without its word (R86). -/
theorem test_wf_refuses_missing_immediate : FullInstr.wellFormed .II ⟨.copy immConf, []⟩ = false := by decide
/-- A word that no input asks for (R86). -/
theorem test_wf_refuses_extra_immediate : FullInstr.wellFormed .II ⟨.copy immConf, [1, 2]⟩ = false := by decide
theorem test_wf_accepts : FullInstr.wellFormed .II ⟨.intr immConf, [0x20]⟩ = true := by decide

/-! ### Decoding: for every command a word written out from R81, `0 cccccc o f bb aa eee` -/

theorem test_decode_copy : decodeTableWord 16 0b0000000100001000 = some (.copy ⟨.always, .imm, .zero, .no, .push⟩) := by decide
theorem test_decode_get : decodeTableWord 16 0b0000010100001000 = some (.get ⟨.always, .imm, .zero, .no, .push⟩) := by decide
theorem test_decode_set : decodeTableWord 16 0b0000011001101000 = some (.set ⟨.always, .imm, .pop, .no, .discard⟩) := by decide
theorem test_decode_store8 : decodeTableWord 16 0b0000100001011001 = some (.store8 ⟨.zero, .pop, .peek, .no, .discard⟩) := by decide
theorem test_decode_store16 : decodeTableWord 16 0b0000101001011000 = some (.store16 ⟨.always, .pop, .peek, .no, .discard⟩) := by decide
theorem test_decode_load8 : decodeTableWord 16 0b0000110100001000 = some (.load8 ⟨.always, .imm, .zero, .no, .push⟩) := by decide
theorem test_decode_load16 : decodeTableWord 16 0b0000111110001000 = some (.load16 ⟨.always, .imm, .zero, .yes, .push⟩) := by decide
theorem test_decode_cpuid : decodeTableWord 16 0b0001000110000000 = some (.cpuid ⟨.always, .zero, .zero, .yes, .push⟩) := by decide
theorem test_decode_halt : decodeTableWord 16 0b0001001000000000 = some (.halt ⟨.always, .zero, .zero, .no, .discard⟩) := by decide
theorem test_decode_frget : decodeTableWord 16 0b0001010100100000 = some (.frget ⟨.always, .zero, .imm, .no, .push⟩) := by decide
theorem test_decode_frset : decodeTableWord 16 0b0001011000101000 = some (.frset ⟨.always, .imm, .imm, .no, .discard⟩) := by decide
theorem test_decode_bpget : decodeTableWord 16 0b0001100100000000 = some (.bpget ⟨.always, .zero, .zero, .no, .push⟩) := by decide
theorem test_decode_bpset : decodeTableWord 16 0b0001101000011000 = some (.bpset ⟨.always, .pop, .zero, .no, .discard⟩) := by decide
theorem test_decode_spget : decodeTableWord 16 0b0001110100000101 = some (.spget ⟨.gequal, .zero, .zero, .no, .push⟩) := by decide
theorem test_decode_spset : decodeTableWord 16 0b0001111100001000 = some (.spset ⟨.always, .imm, .zero, .no, .push⟩) := by decide
theorem test_decode_add : decodeTableWord 16 0b0010000111111000 = some (.add ⟨.always, .pop, .pop, .yes, .push⟩) := by decide
theorem test_decode_sub : decodeTableWord 16 0b0010001010110001 = some (.sub ⟨.zero, .peek, .imm, .yes, .discard⟩) := by decide
theorem test_decode_mul : decodeTableWord 16 0b0010010101011011 = some (.mul ⟨.greater, .pop, .peek, .no, .push⟩) := by decide
theorem test_decode_div : decodeTableWord 16 0b0010011110101000 = some (.div ⟨.always, .imm, .imm, .yes, .push⟩) := by decide
theorem test_decode_mod : decodeTableWord 16 0b0010100110101000 = some (.mod ⟨.always, .imm, .imm, .yes, .push⟩) := by decide
theorem test_decode_and : decodeTableWord 16 0b0010101100101000 = some (.and ⟨.always, .imm, .imm, .no, .push⟩) := by decide
theorem test_decode_or : decodeTableWord 16 0b0010110100101000 = some (.or ⟨.always, .imm, .imm, .no, .push⟩) := by decide
theorem test_decode_xor : decodeTableWord 16 0b0010111100101000 = some (.xor ⟨.always, .imm, .imm, .no, .push⟩) := by decide
theorem test_decode_not : decodeTableWord 16 0b0011000100001000 = some (.not ⟨.always, .imm, .zero, .no, .push⟩) := by decide
theorem test_decode_signext : decodeTableWord 16 0b0011001100001000 = some (.signext ⟨.always, .imm, .zero, .no, .push⟩) := by decide
theorem test_decode_rol : decodeTableWord 16 0b0011010100001000 = some (.rol ⟨.always, .imm, .zero, .no, .push⟩) := by decide
theorem test_decode_ror : decodeTableWord 16 0b0011011100001000 = some (.ror ⟨.always, .imm, .zero, .no, .push⟩) := by decide
theorem test_decode_bswap : decodeTableWord 16 0b0011100100010100 = some (.bswap ⟨.less, .peek, .zero, .no, .push⟩) := by decide
theorem test_decode_asr : decodeTableWord 16 0b0011101100001000 = some (.asr ⟨.always, .imm, .zero, .no, .push⟩) := by decide
theorem test_decode_lsl : decodeTableWord 16 0b0011110100001000 = some (.lsl ⟨.always, .imm, .zero, .no, .push⟩) := by decide
theorem test_decode_lsr : decodeTableWord 16 0b0011111110011110 = some (.lsr ⟨.lequal, .pop, .zero, .yes, .push⟩) := by decide
theorem test_decode_setip : decodeTableWord 16 0b0100000001111000 = some (.setip ⟨.always, .pop, .pop, .no, .discard⟩) := by decide
theorem test_decode_addip : decodeTableWord 16 0b0100001000001010 = some (.addip ⟨.nonzero, .imm, .zero, .no, .discard⟩) := by decide
theorem test_decode_intr : decodeTableWord 16 0b0100010000001000 = some (.intr ⟨.always, .imm, .zero, .no, .discard⟩) := by decide

/-- The reserved words of V2.1 (R96, R97). -/
theorem test_decode_refuses_reserved :
    [0x0200, 0x4600, 0x7E00, 0x7FFF, 0x8000, 0xC008, 0x0201].map (decodeTableWord 16) = List.replicate 7 none := by decide
theorem test_decode_length : (decode [0xA8, 0x21, 1, 2, 3, 4, 5]).toOption =
    some (⟨.add ⟨.always, .imm, .imm, .yes, .push⟩, [0x0201, 0x0403]⟩, [5]) := by decide

/-! ### One step each -/

/-- The start state of the vectors. -/
def start : State := { State.reset with ip := 0x0100, sp := 0x8000, bp := 0x4000, ir := 0 }

def loadWords : List Word → Word → Memory → Memory
  | [], _, m => m
  | w :: ws, a, m => loadWords ws (a + 2) (m.writeWord a w)

/-- The words of the instruction at `IP`, the words of the stack at `SP`. -/
def vec (instr stack : List Word) (s : State) : State :=
  { s with mem := loadWords instr s.ip (loadWords stack s.sp s.mem) }

def after {α : Type} (f : State → α) (o : Host.Outcome State Fault Refusal) : Option α :=
  match o with
  | .next t => some (f t)
  | .fault _ => none
  | .refused _ => none

def faultOf (o : Host.Outcome State Fault Refusal) : Option Fault :=
  match o with
  | .fault f => some f
  | .next _ => none
  | .refused _ => none

/-- The stack top and `FR` after one step. -/
def topFR (s : State) : Option (Word × Word) := after (fun t => (t.mem.readWord t.sp, t.fr)) (step s)

/-- A byte of memory and the stack's word after one step. -/
def wordAfter (a : Word) (s : State) : Option Word := after (fun t => t.mem.readWord a) (step s)

/-- `IP`, `SP` and `FR` after one step. -/
def regsAfter (s : State) : Option (Word × Word × Word) := after (fun t => (t.ip, t.sp, t.fr)) (step s)

/-! V2.4. -/

theorem test_copy : topFR (vec [0x0108, 0x1234] [] start) = some (0x1234, 0x0000) := by decide
theorem test_copy_flags : topFR (vec [0x0090] [0x8001] start) = some (0x8001, 0x0002) := by decide
theorem test_get : topFR (vec [0x0598] [0x0001] { start with mem := loadWords [0xA000, 0xA001] 0x4000 [] }) = some (0xA001, 0x0002) := by decide
theorem test_get_negative_slot : topFR (vec [0x0508, 0xFFFF] [] { start with mem := loadWords [0xAFFF] 0x3FFE [] }) = some (0xAFFF, 0) := by decide
theorem test_set : wordAfter 0x3FFC (vec [0x0668, 0xFFFE] [0x0042] start) = some 0x0042 := by decide
theorem test_set_pushes_the_stored_word : topFR (vec [0x0748, 0x0001] [0x0042] start) = some (0x0042, 0) := by decide
theorem test_store8 : wordAfter 0x9000 (vec [0x0928, 0x1234, 0x9001] [] { start with mem := loadWords [0x80FE] 0x9000 [] }) = some 0x34FE := by decide
theorem test_store8_output : topFR (vec [0x0928, 0x1234, 0x9001] [] start) = some (0x0034, 0) := by decide
theorem test_store16 : wordAfter 0x9004 (vec [0x0B58] [0xCAFE, 0x9004] start) = some 0xCAFE := by decide
theorem test_store16_misaligned : faultOf (step (vec [0x0A28, 0x0001, 0x9001] [] start)) = some .misaligned := by decide
theorem test_load8 : topFR (vec [0x0D88, 0x9001] [] { start with mem := loadWords [0x80FE] 0x9000 [] }) = some (0x0080, 0) := by decide
theorem test_load8_zero : topFR (vec [0x0D88, 0x9003] [] start) = some (0x0000, 0x0001) := by decide
theorem test_load16 : topFR (vec [0x0F88, 0x9000] [] { start with mem := loadWords [0x80FE] 0x9000 [] }) = some (0x80FE, 0x0002) := by decide
theorem test_load16_misaligned : faultOf (step (vec [0x0F08, 0x9001] [] start)) = some .misaligned := by decide

/-! V2.5. -/

theorem test_cpuid : topFR (vec [0x1180] [] start) = some (0x0000, 0x0001) := by decide
theorem test_cpuid_nonzero : faultOf (step (vec [0x1008, 0x0001] [] start)) = some .cpuidNonzeroInput := by decide
theorem test_halt : after (fun t => (t.halted, t.ip)) (step (vec [0x1200] [] start)) = some (true, 0x0102) := by decide
theorem test_frget : topFR (vec [0x1520, 0x00F0] [] { start with fr := 0x00A5 }) = some (0x0005, 0x00A5) := by decide
theorem test_frset : topFR (vec [0x1708, 0x00F8] [] { start with fr := 0x0005 }) = some (0x0005, 0x00F8) := by decide
/-- The flag stage overwrites `Z` and `N` of the `FR` just written. -/
theorem test_frset_then_flags : regsAfter (vec [0x1688, 0x0003] [] start) = some (0x0104, 0x8000, 0x0001) := by decide
theorem test_bpget : topFR (vec [0x1900] [] start) = some (0x4000, 0) := by decide
theorem test_bpset : after (fun t => (t.bp, t.mem.readWord t.sp)) (step (vec [0x1B08, 0x5000] [] start)) = some (0x5000, 0x4000) := by decide
theorem test_bpset_odd : faultOf (step (vec [0x1A08, 0x5001] [] start)) = some .oddPointer := by decide
theorem test_spget_after_pop : topFR (vec [0x1D18] [0x1111] start) = some (0x8002, 0) := by decide
theorem test_spset_pushes_on_the_new_stack :
    after (fun t => (t.sp, t.mem.readWord 0x6FFE)) (step (vec [0x1F18] [0x7000] start)) = some (0x6FFE, 0x8002) := by decide
theorem test_spset_odd : faultOf (step (vec [0x1E08, 0x7001] [] start)) = some .oddPointer := by decide

/-! V2.6. -/

theorem test_add_wraps : topFR (vec [0x21A8, 0xFFFF, 0x0001] [] start) = some (0x0000, 0x0005) := by decide
theorem test_add_carry_in : topFR (vec [0x21A8, 0xFFFF, 0xFFFF] [] { start with fr := 0x000C }) = some (0xFFFF, 0x000E) := by decide
/-- The order of the inputs, V2.3. -/
theorem test_sub_pops_input0_first : topFR (vec [0x2378] [0x0007, 0x0003, 0x1111] start) = some (0x0004, 0) := by decide
theorem test_sub_borrow_in : topFR (vec [0x23A8, 0x0000, 0xFFFF] [] { start with fr := 0x000C }) = some (0x0000, 0x000D) := by decide
theorem test_mul : topFR (vec [0x25A8, 0xFFF9, 0x0002] [] start) = some (0xFFF2, 0x0006) := by decide
theorem test_mul_clears_carry : topFR (vec [0x25A8, 0x00FF, 0x0101] [] { start with fr := 0x0004 }) = some (0xFFFF, 0x0002) := by decide
theorem test_div_truncates : topFR (vec [0x27A8, 0xFFF9, 0x0002] [] { start with fr := 0x0004 }) = some (0xFFFD, 0x0006) := by decide
/-- I5: the interrupt becomes pending, the stack and `FR` stay. -/
theorem test_div_by_zero : after (fun t => (t.ip, t.sp, t.fr, t.ir)) (step (vec [0x2628, 5, 0] [] { start with fr := 0x0010 }))
    = some (0x0106, 0x8000, 0x0010, 0x0010) := by decide
theorem test_mod_has_the_dividends_sign : topFR (vec [0x29A8, 0xFFF9, 0xFFFE] [] start) = some (0xFFFF, 0x0002) := by decide
theorem test_mod_positive_dividend : topFR (vec [0x29A8, 0x0007, 0xFFFE] [] start) = some (0x0001, 0x0000) := by decide

/-! V2.7. -/

theorem test_and : topFR (vec [0x2B28, 0x1234, 0x00FF] [] start) = some (0x0034, 0) := by decide
theorem test_or : topFR (vec [0x2D28, 0x1234, 0x00FF] [] start) = some (0x12FF, 0) := by decide
theorem test_xor : topFR (vec [0x2F28, 0x1234, 0x00FF] [] start) = some (0x12CB, 0) := by decide
theorem test_not : topFR (vec [0x3108, 0x1234] [] start) = some (0xEDCB, 0) := by decide
theorem test_signext : topFR (vec [0x3308, 0x0080] [] start) = some (0xFF80, 0) := by decide
theorem test_signext_clears_the_high_byte : topFR (vec [0x3308, 0x4000] [] start) = some (0x0000, 0) := by decide
theorem test_rol : topFR (vec [0x3508, 0x8001] [] start) = some (0x0003, 0) := by decide
theorem test_ror : topFR (vec [0x3708, 0x8001] [] start) = some (0xC000, 0) := by decide
theorem test_bswap : topFR (vec [0x3908, 0x1234] [] start) = some (0x3412, 0) := by decide
theorem test_asr : topFR (vec [0x3B08, 0x8001] [] start) = some (0xC000, 0) := by decide
theorem test_lsl : topFR (vec [0x3D08, 0x8001] [] start) = some (0x0002, 0) := by decide
theorem test_lsl_ignores_input1 : topFR (vec [0x3D28, 0x0001, 0x0004] [] start) = some (0x0002, 0) := by decide
theorem test_lsr : topFR (vec [0x3F08, 0x8001] [] start) = some (0x4000, 0) := by decide

/-! V2.8. -/

theorem test_setip_call : after (fun t => (t.ip, t.mem.readWord t.sp)) (step (vec [0x4108, 0x0200] [] start)) = some (0x0200, 0x0104) := by decide
theorem test_setip_return_sets_flags : regsAfter (vec [0x4078] [0x0300, 0x0080] { start with fr := 0x0031 }) = some (0x0300, 0x8004, 0x00B1) := by decide
theorem test_addip : regsAfter (vec [0x420A, 0xFFF6] [] start) = some (0x00FA, 0x8000, 0) := by decide
theorem test_addip_sets_flags : regsAfter (vec [0x4238, 0x0008] [0xFF00] start) = some (0x0004, 0x8002, 0x0008) := by decide
theorem test_intr : after (fun t => (t.ir, t.mem.readWord t.sp)) (step (vec [0x4508, 0x00A2] [] start)) = some (0x00A2, 0x00A2) := by decide
theorem test_intr_reserved : faultOf (step (vec [0x4408, 0x0008] [] start)) = some .irReserved := by decide

/-! V2.9 to V2.11: interrupts, reset, skipped and faulting instructions. -/

/-- The interrupt table of V2.9, and the return instruction at the handlers. -/
def table : Memory :=
  loadWords [0x0100, 0x0210, 0x0220, 0x0230, 0x0240, 0x0250, 0x0260, 0x0270] 0x0000
    (loadWords [0x4078] 0x0210 (loadWords [0x4078] 0x0270 []))

/-- I3, step 1. -/
theorem test_nmi_and_irq : after (fun t => (t.ip, t.sp, t.fr, t.ir))
    (step { start with mem := table, fr := 0x0080, ext := [{ rst := false, nmi := true, irq := true }] })
    = some (0x0270, 0x7FFC, 0x0002, 0x0000) := by decide
/-- I7, step 3. -/
theorem test_nmi_wakes : after (fun t => (t.ip, t.sp, t.fr, t.halted))
    (step { start with mem := table, halted := true, ip := 0x0102, ext := [{ rst := false, nmi := true, irq := false }] })
    = some (0x0102, 0x8000, 0x0002, false) := by decide
/-- I9: the step from power-on enters at the reset vector. -/
theorem test_power_on : regsAfter { State.reset with mem := loadWords [0x1E08, 0x8000] 0x0100 (loadWords [0x0100] 0 []) }
    = some (0x0104, 0x8000, 0) := by decide
/-- I10. -/
theorem test_power_on_l : regsAfter (State.powerOnL (Config.default .L) 1 3 5 (loadWords [0x1E08, 0x8000] 0 []) [])
    = some (0x0004, 0x8000, 0) := by decide
theorem test_skipped : regsAfter (vec [0x21A9, 1, 2] [] start) = some (0x0106, 0x8000, 0) := by decide
/-- A reserved word stops although its condition is false. -/
theorem test_reserved_command : faultOf (step (vec [0x4601] [] start)) = some .reservedCommand := by decide
theorem test_reserved_bit15 : faultOf (step (vec [0x8000] [] start)) = some .reservedBit15 := by decide
theorem test_odd_handler : faultOf (step { start with ir := 2, mem := loadWords [0x0211] 0x0002 [] }) = some .oddPointer := by decide
theorem test_fr_reserved_on_l : faultOf (step (vec [0x1608, 0x0010] [] { start with cfg := Config.default .L })) = some .frReserved := by decide
theorem test_intr_on_l : faultOf (step (vec [0x4408, 0x0020] [] { start with cfg := Config.default .L })) = some .intrWithoutIr := by decide

/-- The step runs a word placed by `withFetchWord` first. -/
theorem test_withFetchWord : after (fun t => (t.bp, t.ip)) (step (State.reset.withFetchWord 16 0x1A00)) = some (0, 2) := by decide
theorem test_reset_memory : State.reset.mem.wf = true := by decide

/-! ### Witnesses: for every statement with hypotheses a state and operands that meet them, for each clause at the ends of its
range -/

/-- Both inputs popped, the output pushed, the flags set. -/
def both : Conf := { cond := .always, in0 := .pop, in1 := .pop, flag := .yes, out := .push }

/-- The start state of a variant with two words on the stack. -/
def two (v : Variant) (a b : Word) : State := { vec [] [a, b] start with cfg := Config.default v }

theorem runs_two (v : Variant) (a b : Word) : Runs both (two v a b) :=
  ⟨rfl, plainPlatform_default v, (by decide : WordEven 0x0100), fun _ => (by decide : WordEven 0x8000)⟩

/-- The hypotheses of the statements with `Runs` and `OutputReady` alone. -/
theorem ready_two (v : Variant) (a b : Word) :
    Runs both (two v a b) ∧ OutputReady both (spAfterInputs both (two v a b)) :=
  ⟨runs_two v a b, fun _ => (by decide : WordEven 0x8004)⟩

theorem witness_DecodeOfEncodeWithImmediates :
    FullInstr.wellFormed .II ⟨.add { both with in0 := .imm, in1 := .imm }, [0xFFFF, 0x0000]⟩ = true ∧
    FullInstr.wellFormed .L ⟨.add both, []⟩ = true := by decide
theorem witness_EncodeWordOfDecodeWord :
    decodeWord 0x0000 = .ok (.copy plainConf) ∧ decodeWord 0x45FF = .ok (.intr { both with cond := .ovfl }) := ⟨rfl, rfl⟩
theorem witness_ReservedWordsAreRefused :
    PlainPlatform start.cfg ∧ WordEven start.ip ∧
    (vec [0x8000] [] start).mem.readWord start.ip = 0x8000 ∧ decodeWord 0x8000 = .error .reservedBit15 ∧
    decodeWord 0xFFFF = .error .reservedBit15 ∧
    (vec [0x0200] [] start).mem.readWord start.ip = 0x0200 ∧ decodeWord 0x0200 = .error .reservedCommand ∧
    decodeWord 0x03FF = .error .reservedCommand ∧ decodeWord 0x4600 = .error .reservedCommand ∧
    decodeWord 0x7FFF = .error .reservedCommand := by
  exact ⟨plainPlatform_default .II, by decide, by decide, rfl, rfl, by decide, rfl, rfl, rfl, rfl⟩
theorem witness_LengthFollowsInputFields :
    FullInstr.immsMatch ⟨.copy both, []⟩ = true ∧ FullInstr.immsMatch ⟨.copy immConf, [7]⟩ = true ∧
    FullInstr.immsMatch ⟨.copy { immConf with in1 := .imm }, [7, 8]⟩ = true ∧
    decode [0xA8, 0x21, 1, 0, 2, 0, 9] = .ok (⟨.add { both with in0 := .imm, in1 := .imm }, [1, 2]⟩, [9]) ∧
    decode [0x00, 0x12] = .ok (⟨.halt plainConf, []⟩, []) := ⟨rfl, rfl, rfl, rfl, rfl⟩
theorem witness_ConditionsFollowTheTable :
    bits 0x0108 0 3 = 0 ∧ bits 0x0109 0 3 = 1 ∧ bits 0x010A 0 3 = 2 ∧ bits 0x010B 0 3 = 3 ∧ bits 0x010C 0 3 = 4 ∧
    bits 0x010D 0 3 = 5 ∧ bits 0x010E 0 3 = 6 ∧ bits 0x010F 0 3 = 7 := by decide
theorem witness_OutputThenFlagStage :
    (match runStages both copyCommand { two .II 5 3 with ip := 0x0102 } with | .ok _ => true | _ => false) = true ∧
    (match runStages plainConf copyCommand { two .II 5 3 with ip := 0x0102 } with | .ok _ => true | _ => false) = true := by
  decide
theorem witness_StepRunsDecodedInstruction :
    boundary (vec [0x1A00] [] start) = .ok (vec [0x1A00] [] start) ∧ (vec [0x1A00] [] start).boundaryQuiet ∧
    (vec [0x1A00] [] start).halted = false ∧ access start.cfg start.ip .word .code = .ok () ∧
    decodeWord ((vec [0x1A00] [] start).mem.readWord start.ip) = .ok (.bpset plainConf) :=
  ⟨by decide, ⟨rfl, rfl⟩, rfl, rfl, rfl⟩
theorem witness_NotExecutedOnlyAdvancesIP :
    isExecuted (Instr.halt { immConf with cond := .zero }).conf.cond start.fr = false := by decide
theorem witness_InputsAreObtainedInOrder :
    InputsReady both (two .II 1 2) ∧ ({ start with sp := 0x8001 } : State).sp.getLsbD 0 = true :=
  ⟨(runs_two .II 1 2).inputs, by decide⟩
theorem witness_PushStoresBelow :
    PlainPlatform start.cfg ∧ WordEven ({ start with sp := 0x0000 } : State).sp ∧ start.mem.wf = true ∧
    ({ start with sp := 0xFFFF } : State).sp.getLsbD 0 = true :=
  ⟨plainPlatform_default .II, by decide, by decide, by decide⟩
theorem witness_WordsAreLittleEndian :
    PlainPlatform start.cfg ∧ start.mem.wf = true ∧ WordEven 0x0000 ∧ WordEven 0xFFFE ∧ (two .II 0x1234 0xFFFE).mem.wf = true ∧
    Runs { both with out := .discard } (two .II 0x1234 0xFFFE) ∧
    WordEven (input1Of { both with out := .discard } (two .II 0x1234 0xFFFE)) :=
  ⟨plainPlatform_default .II, by decide, by decide, by decide, by decide, ⟨rfl, (runs_two .II 0x1234 0xFFFE).inputs.1, by decide, fun _ => by decide⟩, by decide⟩

theorem witness_CopyCompletes :
    Runs both (two .II 5 3) ∧ OutputReady both (spAfterInputs both (two .II 5 3)) := ready_two .II 5 3
theorem witness_GetCompletes :
    Runs both (two .II 0xFFFF 3) ∧ OutputReady both (spAfterInputs both (two .II 0xFFFF 3)) ∧ WordEven (two .II 0xFFFF 3).bp ∧
    Runs both { two .II 0xFFFF 3 with bp := 0x4001 } ∧ ({ two .II 0xFFFF 3 with bp := 0x4001 } : State).bp.getLsbD 0 = true :=
  ⟨(ready_two _ _ _).1, (ready_two _ _ _).2, by decide, ⟨rfl, (runs_two .II 5 3).inputs.1, by decide, fun _ => by decide⟩, by decide⟩
theorem witness_SetCompletes :
    Runs both (two .L 0x8000 3) ∧ OutputReady both (spAfterInputs both (two .L 0x8000 3)) ∧ WordEven (two .L 0x8000 3).bp ∧
    Runs both { two .II 5 3 with bp := 0xFFFF } ∧ ({ two .II 5 3 with bp := 0xFFFF } : State).bp.getLsbD 0 = true :=
  ⟨(ready_two _ _ _).1, (ready_two _ _ _).2, by decide, ⟨rfl, (runs_two .II 5 3).inputs.1, by decide, fun _ => by decide⟩, by decide⟩
theorem witness_Store8Completes :
    Runs both (two .II 0x1234 0xFFFF) ∧ OutputReady both (spAfterInputs both (two .II 0x1234 0xFFFF)) := ready_two _ _ _
theorem witness_Store16Completes :
    Runs both (two .II 1 0xFFFE) ∧ OutputReady both (spAfterInputs both (two .II 1 0xFFFE)) ∧
    WordEven (input1Of both (two .II 1 0xFFFE)) ∧
    Runs both (two .II 1 0xFFFF) ∧ (input1Of both (two .II 1 0xFFFF)).getLsbD 0 = true :=
  ⟨(ready_two _ _ _).1, (ready_two _ _ _).2, by decide, runs_two _ _ _, by decide⟩
theorem witness_Load8Completes :
    Runs both (two .L 0xFFFF 0) ∧ OutputReady both (spAfterInputs both (two .L 0xFFFF 0)) := ready_two _ _ _
theorem witness_Load16Completes :
    Runs both (two .II 0xFFFE 0) ∧ OutputReady both (spAfterInputs both (two .II 0xFFFE 0)) ∧
    WordEven (input0Of both (two .II 0xFFFE 0)) ∧
    Runs both (two .II 0x0001 0) ∧ (input0Of both (two .II 0x0001 0)).getLsbD 0 = true :=
  ⟨(ready_two _ _ _).1, (ready_two _ _ _).2, by decide, runs_two _ _ _, by decide⟩

theorem witness_CpuidCompletes :
    Runs both (two .II 0 0) ∧ OutputReady both (spAfterInputs both (two .II 0 0)) ∧
    (input0Of both (two .II 0 0) = 0 ∧ input1Of both (two .II 0 0) = 0) ∧
    Runs both (two .II 0 1) ∧ ¬ (input0Of both (two .II 0 1) = 0 ∧ input1Of both (two .II 0 1) = 0) ∧
    Runs both (two .II 0x8000 0) ∧ ¬ (input0Of both (two .II 0x8000 0) = 0 ∧ input1Of both (two .II 0x8000 0) = 0) :=
  ⟨runs_two _ _ _, (ready_two _ _ _).2, by decide, runs_two _ _ _, by decide, runs_two _ _ _, by decide⟩
theorem witness_HaltCompletes :
    Runs both (two .L 5 3) ∧ OutputReady both (spAfterInputs both (two .L 5 3)) := ready_two _ _ _
theorem witness_FrgetCompletes :
    Runs both (two .II 0 0x00F0) ∧ OutputReady both (spAfterInputs both (two .II 0 0x00F0)) := ready_two _ _ _
/-- The new value of `FR` that `FRSET` would write with both inputs popped. -/
def frsetValue (s : State) : Word := (input0Of both s &&& ~~~ input1Of both s) ||| (s.fr &&& input1Of both s)
theorem witness_FrsetCompletes :
    Runs both (two .II 0x00FF 0) ∧ OutputReady both (spAfterInputs both (two .II 0x00FF 0)) ∧
    frsetValue (two .II 0x00FF 0) &&& frReservedMask .II = 0 ∧
    Runs both (two .II 0x0100 0) ∧ frsetValue (two .II 0x0100 0) &&& frReservedMask .II ≠ 0 ∧
    Runs both (two .L 0x000F 0) ∧ frsetValue (two .L 0x000F 0) &&& frReservedMask .L = 0 ∧
    Runs both (two .L 0x0010 0) ∧ frsetValue (two .L 0x0010 0) &&& frReservedMask .L ≠ 0 :=
  ⟨runs_two _ _ _, (ready_two _ _ _).2, by decide, runs_two _ _ _, by decide, runs_two _ _ _, by decide, runs_two _ _ _,
    by decide⟩
theorem witness_BpgetAndSpgetComplete :
    Runs both (two .II 5 3) ∧ OutputReady both (spAfterInputs both (two .II 5 3)) := ready_two _ _ _
theorem witness_BpsetCompletes :
    Runs both (two .II 0xFFFE 3) ∧ OutputReady both (spAfterInputs both (two .II 0xFFFE 3)) ∧
    WordEven (input0Of both (two .II 0xFFFE 3)) ∧
    Runs both (two .II 0xFFFF 3) ∧ (input0Of both (two .II 0xFFFF 3)).getLsbD 0 = true :=
  ⟨runs_two _ _ _, (ready_two _ _ _).2, by decide, runs_two _ _ _, by decide⟩
/-- `SPSET` completes with an odd `SP` too. -/
theorem witness_SpsetCompletes :
    Runs both (two .II 0x0000 3) ∧ WordEven (input0Of both (two .II 0x0000 3)) ∧
    Runs { immConf with out := .push } (vec [0, 0x7000] [] { start with sp := 0x8001 }) ∧
    WordEven (input0Of { immConf with out := .push } (vec [0, 0x7000] [] { start with sp := 0x8001 })) ∧
    Runs both (two .II 0x0001 3) ∧ (input0Of both (two .II 0x0001 3)).getLsbD 0 = true :=
  ⟨runs_two _ _ _, by decide, ⟨rfl, plainPlatform_default .II, by decide, by decide⟩, by decide, runs_two _ _ _, by decide⟩

theorem witness_AddCompletes :
    Runs both (two .II 0xFFFF 1) ∧ OutputReady both (spAfterInputs both (two .II 0xFFFF 1)) := ready_two _ _ _
theorem witness_SubCompletes :
    Runs both (two .II 0 0xFFFF) ∧ OutputReady both (spAfterInputs both (two .II 0 0xFFFF)) := ready_two _ _ _
theorem witness_MulCompletes :
    Runs both (two .II 0x00FF 0x0101) ∧ OutputReady both (spAfterInputs both (two .II 0x00FF 0x0101)) := ready_two _ _ _
theorem witness_DivAndModComplete :
    Runs both (two .II 0x8000 0xFFFF) ∧ OutputReady both (spAfterInputs both (two .II 0x8000 0xFFFF)) ∧
    input1Of both (two .II 0x8000 0xFFFF) ≠ 0 := ⟨runs_two _ _ _, (ready_two _ _ _).2, by decide⟩
theorem witness_DivisionByZeroCompletes :
    Runs both (two .II 5 0) ∧ OutputReady both (spAfterInputs both (two .II 5 0)) ∧ input1Of both (two .II 5 0) = 0 ∧
    Runs both (two .L 5 0) ∧ OutputReady both (spAfterInputs both (two .L 5 0)) ∧ input1Of both (two .L 5 0) = 0 :=
  ⟨runs_two _ _ _, (ready_two _ _ _).2, by decide, runs_two _ _ _, (ready_two _ _ _).2, by decide⟩
theorem witness_TruncatingDivisionObeysTheDivisionLaw :
    (1 : Word) ≠ 0 ∧ ¬ ((0x8000 : Word) = 0x8000 ∧ (1 : Word) = 0xFFFF) ∧
    (0xFFFF : Word) ≠ 0 ∧ ¬ ((0x8001 : Word) = 0x8000 ∧ (0xFFFF : Word) = 0xFFFF) := by decide
theorem witness_BitwiseCommandsComplete :
    Runs both (two .II 0xF0F0 0xFF00) ∧ OutputReady both (spAfterInputs both (two .II 0xF0F0 0xFF00)) := ready_two _ _ _
theorem witness_SignextAndBswapComplete :
    Runs both (two .II 0x0080 0) ∧ OutputReady both (spAfterInputs both (two .II 0x0080 0)) := ready_two _ _ _
theorem witness_RotatesAndShiftsComplete :
    Runs both (two .II 0x8001 0) ∧ OutputReady both (spAfterInputs both (two .II 0x8001 0)) := ready_two _ _ _

theorem witness_SetipCompletes :
    Runs both (two .II 0xFFFE 0x00FF) ∧ OutputReady both (spAfterInputs both (two .II 0xFFFE 0x00FF)) ∧
    WordEven (input0Of both (two .II 0xFFFE 0x00FF)) ∧
    ((two .II 0xFFFE 0x00FF).fr ||| input1Of both (two .II 0xFFFE 0x00FF)) &&& frReservedMask .II = 0 ∧
    Runs both (two .II 0x0201 0) ∧ (input0Of both (two .II 0x0201 0)).getLsbD 0 = true ∧
    Runs both (two .II 0x0200 0x0100) ∧ WordEven (input0Of both (two .II 0x0200 0x0100)) ∧
    ((two .II 0x0200 0x0100).fr ||| input1Of both (two .II 0x0200 0x0100)) &&& frReservedMask .II ≠ 0 ∧
    Runs both (two .L 0x0200 0x0010) ∧ WordEven (input0Of both (two .L 0x0200 0x0010)) ∧
    ((two .L 0x0200 0x0010).fr ||| input1Of both (two .L 0x0200 0x0010)) &&& frReservedMask .L ≠ 0 :=
  ⟨runs_two _ _ _, (ready_two _ _ _).2, by decide, by decide, runs_two _ _ _, by decide, runs_two _ _ _, by decide, by decide,
    runs_two _ _ _, by decide, by decide⟩
theorem witness_AddipCompletes :
    Runs both (two .II 0xFFFE 0x00FF) ∧ OutputReady both (spAfterInputs both (two .II 0xFFFE 0x00FF)) ∧
    WordEven (nextIP both (two .II 0xFFFE 0x00FF) + input0Of both (two .II 0xFFFE 0x00FF)) ∧
    ((two .II 0xFFFE 0x00FF).fr ||| input1Of both (two .II 0xFFFE 0x00FF)) &&& frReservedMask .II = 0 ∧
    Runs both (two .II 3 0) ∧ (nextIP both (two .II 3 0) + input0Of both (two .II 3 0)).getLsbD 0 = true ∧
    Runs both (two .II 0 0x8000) ∧ WordEven (nextIP both (two .II 0 0x8000) + input0Of both (two .II 0 0x8000)) ∧
    ((two .II 0 0x8000).fr ||| input1Of both (two .II 0 0x8000)) &&& frReservedMask .II ≠ 0 :=
  ⟨runs_two _ _ _, (ready_two _ _ _).2, by decide, by decide, runs_two _ _ _, by decide, runs_two _ _ _, by decide, by decide⟩
theorem witness_IntrCompletes :
    Runs both (two .II 0x00F7 0) ∧ OutputReady both (spAfterInputs both (two .II 0x00F7 0)) ∧
    input0Of both (two .II 0x00F7 0) &&& 0xFF08 = 0 ∧
    Runs both (two .II 0x0008 0) ∧ input0Of both (two .II 0x0008 0) &&& 0xFF08 ≠ 0 ∧
    Runs both (two .II 0x0100 0) ∧ input0Of both (two .II 0x0100 0) &&& 0xFF08 ≠ 0 ∧
    Runs both (two .L 0x0020 0) ∧ (two .L 0x0020 0).cfg.variant = .L :=
  ⟨runs_two _ _ _, (ready_two _ _ _).2, by decide, runs_two _ _ _, by decide, runs_two _ _ _, by decide, runs_two _ _ _, rfl⟩

/-- The state in which the platform answers the data access at `SP` with the `BUS` pin. -/
def busAtSP (s : State) : State := { s with cfg := { s.cfg with busRules := [⟨s.sp, s.sp, .word, .data⟩] } }
/-- A store with its condition false. -/
def skippedStore : Instr := .store16 { both with cond := .zero }
/-- The frames: a store with a push, a skipped instruction and one undone by the `BUS` pin all answer a next state. -/
theorem witness_MemoryFrame :
    (two .II 0x1234 0x9000).mem.wf = true ∧ (after (fun t => t.ip) (exec (.store16 both) (two .II 0x1234 0x9000))).isSome = true ∧
    (after (fun t => t.ip) (exec skippedStore (two .II 0x1234 0x9000))).isSome = true ∧
    skipped skippedStore (two .II 0x1234 0x9000) = true ∧
    (after (fun t => t.ip) (exec (.store16 both) (busAtSP (two .II 0x1234 0x9000)))).isSome = true ∧
    undone (.store16 both) (busAtSP (two .II 0x1234 0x9000)) = true := by decide
theorem witness_PointerFrame :
    (after (fun t => t.ip) (exec (.bpset both) (two .II 0x5000 0))).isSome = true ∧
    skipped (.bpset both) (two .II 0x5000 0) = false ∧ undone (.bpset both) (two .II 0x5000 0) = false ∧
    (after (fun t => t.ip) (exec skippedStore (two .II 0x5000 0))).isSome = true ∧
    skipped skippedStore (two .II 0x5000 0) = true ∧
    (after (fun t => t.ip) (exec (.bpset both) (busAtSP (two .II 0x5000 0)))).isSome = true ∧
    undone (.bpset both) (busAtSP (two .II 0x5000 0)) = true := by decide
theorem witness_FlagFrame :
    (after (fun t => t.ip) (exec (.and { both with flag := .no }) (two .II 1 0))).isSome = true ∧
    writesWholeFR (.and { both with flag := .no }) = false ∧ writesCarry (.and { both with flag := .no }) = false ∧
    (after (fun t => t.ip) (exec (.add both) (busAtSP (two .II 1 0)))).isSome = true ∧
    undone (.add both) (busAtSP (two .II 1 0)) = true := by decide
theorem witness_SystemFrame :
    after (fun t => t.ir) (exec (.copy both) (busAtSP (two .II 1 0))) = some 0x0004 ∧
    undone (.copy both) (busAtSP (two .II 1 0)) = true ∧ isHalt (.copy both) = false ∧ mayDraw (.copy both) = false ∧
    after (fun t => t.ir) (exec (.copy both) (two .II 1 0)) = some 0 ∧ undone (.copy both) (two .II 1 0) = false ∧
    setsPending (.copy both) = false := by decide

/-- The start state with the interrupt table and every maskable interrupt enabled. -/
def armed : State := { start with mem := table, fr := 0x00F0 }

theorem witness_InterruptEntry :
    (∀ n : Nat, n < 8 → n < 4 ∨ armed.fr.getLsbD n = true) ∧ ({ armed with sp := 0xFFFF } : State).sp.getLsbD 0 = true ∧
    PlainPlatform armed.cfg ∧ WordEven armed.sp ∧
    armed.mem.wf = true ∧ (∀ n : Nat, n < 8 → WordEven (entered n armed).ip) ∧
    (entered 7 { armed with mem := loadWords [0x0271] 0x000E [] }).ip.getLsbD 0 = true ∧
    (entered 0 { armed with mem := loadWords [0x0001] 0x0000 [] }).ip.getLsbD 0 = true :=
  ⟨by decide, by decide, plainPlatform_default .II, by decide, by decide, by decide, by decide, by decide⟩
theorem witness_MaskedInterruptIsDropped :
    start.fr.getLsbD 4 = false ∧ start.fr.getLsbD 7 = false ∧ PlainPlatform armed.cfg ∧ WordEven armed.sp ∧
    WordEven (entered 0 armed).ip ∧ WordEven (entered 3 armed).ip :=
  ⟨by decide, by decide, plainPlatform_default .II, by decide, by decide, by decide⟩
theorem witness_InterruptLoopIsTheDescendingScan :
    (armed.cfg.variant = .II ∧ armed.resetRuns = false) ∧ PlainPlatform armed.cfg ∧ WordEven armed.sp ∧
    handlersEven 16 { armed with ir := 0x0082 } = true ∧ (match interruptPhase { armed with ir := 0x0080 } with | .ok t => decide (t.ip = 0x0270) | _ => false) = true :=
  ⟨⟨rfl, by decide⟩, plainPlatform_default .II, by decide, by decide, by decide⟩
theorem witness_LowestHandlerRunsFirst :
    ({ armed with ir := 0x0082 } : State).ir = 1#16 <<< 1 ||| 1#16 <<< 7 ∧ armed.fr.getLsbD 7 = true ∧
    PlainPlatform armed.cfg ∧ WordEven armed.sp ∧ armed.mem.wf = true ∧
    WordEven (entered 7 { armed with ir := 0x0082 }).ip ∧
    WordEven (entered 1 (entered 7 { armed with ir := 0x0082 })).ip :=
  ⟨by decide, by decide, plainPlatform_default .II, by decide, by decide, by decide, by decide⟩
def nmiPin : Pins := { Pins.quiet with nmi := true }
def irqPin : Pins := { Pins.quiet with irq := true }
theorem witness_PinsAreServedAtTheBoundary :
    armed.cfg.variant = .II ∧ armed.ir = 0 ∧ PlainPlatform armed.cfg ∧ WordEven armed.sp ∧
    (currentPins { armed with ext := [nmiPin] }).rst = false ∧ (currentPins { armed with ext := [nmiPin] }).nmi = true ∧
    (currentPins { armed with ext := [nmiPin] }).irq = false ∧ WordEven (entered 1 { armed with ext := [nmiPin] }).ip ∧
    (currentPins { armed with ext := [irqPin] }).rst = false ∧ (currentPins { armed with ext := [irqPin] }).nmi = false ∧
    (currentPins { armed with ext := [irqPin] }).irq = true ∧ armed.fr.getLsbD 7 = true ∧
    WordEven (entered 7 { armed with ext := [irqPin] }).ip ∧ start.fr.getLsbD 7 = false ∧
    currentPins armed = Pins.quiet :=
  ⟨rfl, rfl, plainPlatform_default .II, by decide, by decide, by decide, by decide, by decide, by decide, by decide, by decide,
    by decide, by decide, by decide, by decide⟩
theorem witness_InterruptReturnResumes :
    (∀ n : Nat, n < 8 → n < 4 ∨ armed.fr.getLsbD n = true) ∧ armed.cfg.variant = .II ∧ PlainPlatform armed.cfg ∧
    armed.mem.wf = true ∧ WordEven armed.sp ∧ WordEven armed.ip ∧ (∀ n : Nat, n < 8 → WordEven (entered n armed).ip) ∧
    armed.fr &&& frReservedMask .II = 0 :=
  ⟨by decide, rfl, plainPlatform_default .II, by decide, by decide, by decide, by decide, by decide⟩
theorem witness_ResetSequenceOfII :
    State.reset.cfg.variant = .II ∧ State.reset.resetRuns = true ∧ PlainPlatform State.reset.cfg ∧
    WordEven (({ State.reset with mem := table } : State).mem.readWord 0) ∧
    (({ State.reset with mem := loadWords [1] 0 [] } : State).mem.readWord 0).getLsbD 0 = true :=
  ⟨rfl, by decide, plainPlatform_default .II, by decide, by decide⟩
theorem witness_BoundaryOfL :
    (two .L 0 0).cfg.variant = .L ∧
    (currentPins { two .L 0 0 with ext := [{ Pins.quiet with rst := true }] }).rst = true ∧
    (currentPins { two .L 0 0 with ext := [nmiPin] }).rst = false := by decide
theorem witness_PowerOnEntersAtTheResetVector :
    (Config.default .II).variant = .II ∧ PlainPlatform (Config.default .II) ∧ WordEven (table.readWord 0) :=
  ⟨rfl, plainPlatform_default .II, by decide⟩
/-- A platform that answers with the `BUS` pin. -/
def busCfg (a : Word) (k : AccessKind) : Config := { Config.default .II with busRules := [⟨a, a, .word, k⟩] }
/-- A platform that answers with the `BUS` pin the accesses of one kind at one address. -/
def onBus (a : Word) (k : AccessKind) (s : State) : State := { s with cfg := busCfg a k }
/-- `get [i0:imm] [i1:pop] [r:push]`: a code access and three data accesses. -/
def fourAccesses : Instr := .get { both with in0 := .imm }
/-- The last interrupt of two is hit: 7 is entered, then 1 reads its table entry. -/
def nested : State := onBus 0x0002 .code { armed with ir := 0x0082 }
/-- Each of the four accesses is hit, those before it plain; a fetch, a reset vector and the accesses of an entry are hit. -/
theorem witness_BusFaultUndoesTheInstruction :
    (boundary (onBus 0x0100 .code start) = .ok (onBus 0x0100 .code start) ∧ WordEven start.ip ∧
      busFault (busCfg 0x0100 .code) start.ip .word .code = true) ∧
    (skipped fourAccesses start = false ∧
      instrAccesses fourAccesses start =
        [⟨0x0102, .word, .code⟩, ⟨0x8000, .word, .data⟩, ⟨0x4000, .word, .data⟩, ⟨0x8000, .word, .data⟩] ∧
      instrAccesses (.store16 { both with in0 := .zero, in1 := .zero }) start =
        [⟨0x0000, .word, .data⟩] ++ ⟨0x7FFE, .word, .data⟩ :: [] ∧
      MemAccess.hitsBus (busCfg 0x0102 .code) ⟨0x0102, .word, .code⟩ ∧
      MemAccess.isPlain (busCfg 0x8000 .data) ⟨0x0102, .word, .code⟩ ∧
      MemAccess.hitsBus (busCfg 0x8000 .data) ⟨0x8000, .word, .data⟩ ∧
      MemAccess.isPlain (busCfg 0x4000 .data) ⟨0x8000, .word, .data⟩ ∧
      MemAccess.hitsBus (busCfg 0x4000 .data) ⟨0x4000, .word, .data⟩ ∧
      MemAccess.isPlain (busCfg 0x7FFE .data) ⟨0x0000, .word, .data⟩ ∧
      MemAccess.hitsBus (busCfg 0x7FFE .data) ⟨0x7FFE, .word, .data⟩) ∧
    commandChecks (.store16 { both with in0 := .zero, in1 := .zero }) start ∧
    ((onBus 0 .code State.reset).resetRuns = true ∧ busFault (busCfg 0 .code) 0 .word .code = true) ∧
    (nested.cfg.variant = .II ∧ nested.resetRuns = false ∧
      serveDescending 2 14 (withPins nested) = .ok (entered 7 nested) ∧ (entered 7 nested).ir.getLsbD 1 = true ∧
      entryAccesses 1 (entered 7 nested) =
        [⟨0x7FFA, .word, .data⟩, ⟨0x7FF8, .word, .data⟩] ++ ⟨0x0002, .word, .code⟩ :: [] ∧
      MemAccess.isPlain nested.cfg ⟨0x7FFA, .word, .data⟩ ∧ MemAccess.isPlain nested.cfg ⟨0x7FF8, .word, .data⟩ ∧
      MemAccess.hitsBus nested.cfg ⟨0x0002, .word, .code⟩) := by
  refine ⟨by decide, ⟨rfl, by decide, by decide, ?_⟩, trivial, by decide, by decide, by decide, by decide, by decide, by decide, ?_⟩ <;>
    (simp only [MemAccess.hitsBus, MemAccess.isPlain]; decide)
/-- The push of `SPSET` on its new stack; the second immediate; the push after a store, which is undone too. -/
theorem test_bus_undoes_every_access :
    after (fun t => (t.ip, t.sp, t.ir)) (step (onBus 0x6FFE .data (vec [0x1F18] [0x7000] start))) = some (0x0100, 0x8000, 4) ∧
    after (fun t => (t.ip, t.sp, t.ir)) (step (onBus 0x0104 .code (vec [0x2B28, 1, 2] [] start))) = some (0x0100, 0x8000, 4) ∧
    wordAfter 0x9000 (onBus 0x7FFE .data (vec [0x0B28, 5, 0x9000] [] start)) = some 0 := by decide
theorem test_bus_during_entry :
    faultOf (step nested) = some .busErrorDuringEntry ∧
    faultOf (step (onBus 0x7FFC .data { armed with ir := 0x0002 })) = some .busErrorDuringEntry := by decide
theorem test_entry_with_odd_sp : faultOf (step { armed with ir := 0x0002, sp := 0x7FFF }) = some .misaligned := by decide
/-- `halt [ex:zero]`, V2.10. -/
theorem test_skipped_halt : after (fun t => (t.ip, t.halted)) (step (vec [0x1201] [] start)) = some (0x0102, false) := by decide
theorem witness_MaskedRequestsDoNotWake :
    (∀ n : Nat, n < 16 →
      (({ start with halted := true, ext := [irqPin] } : State).ir |||
        pinBits (currentPins { start with halted := true, ext := [irqPin] })).getLsbD n = true →
      4 ≤ n ∧ start.fr.getLsbD n = false) ∧
    ({ start with halted := true, ext := [irqPin] } : State).resetRuns = false ∧
    (currentPins { two .L 0 0 with halted := true, ext := [nmiPin] }).rst = false := by decide
theorem witness_FinishedRunsStay :
    (after (fun t => (t.halted, t.ext)) (step (vec [0x1200] [] start)) = some (true, [])) ∧
    ({ start with halted := true, ext := [Pins.quiet, Pins.quiet] } : State).Finished ∧
    (after (fun t => (t.halted, t.ext)) (step { vec [0x1200] [] start with cfg := Config.default .L, ext := [Pins.quiet, nmiPin] })
      = some (true, [nmiPin])) ∧
    ({ two .L 0 0 with halted := true, ext := [nmiPin, irqPin, { Pins.quiet with rst := true }] } : State).Finished ∧
    ∀ p ∈ [nmiPin, irqPin, { Pins.quiet with rst := true }].take 2, p.rst = false :=
  ⟨by decide, ⟨rfl, fun _ => ⟨rfl, by decide⟩⟩, by decide, ⟨rfl, fun h => absurd h (by decide)⟩, by decide⟩
theorem witness_OnlyHaltHalts :
    after (fun t => t.halted) (step (vec [0x1200] [] start)) = some true := by decide
theorem witness_StepKeepsInvariant :
    (vec [0x4108, 0x0200] [] start).Inv ∧ (after (fun t => t.ip) (step (vec [0x4108, 0x0200] [] start))).isSome = true :=
  ⟨⟨by decide, by decide, by decide, by decide, by decide⟩, by decide⟩
theorem witness_StepKeepsPointersEven :
    (vec [0x1F08, 0x7000] [] start).resetRuns = false ∧ WordEven start.sp ∧ WordEven start.bp ∧
    (after (fun t => t.ip) (step (vec [0x1F08, 0x7000] [] start))).isSome = true := by decide
theorem witness_StepKeepsConfiguration :
    (after (fun t => t.ip) (step (vec [0x1F08, 0x7000] [] { start with ext := [irqPin] }))).isSome = true := by decide

end Sys2Proof.Tests
end

