-- ==== Sys2Proof/Proofs/Memory.lean ====
section
/-! SUPPORT. The byte order of words (`20_memory.md` R51): a word from its two bytes, the bytes that a word store leaves, and
`STORE16` as a whole. -/

namespace Sys2Proof.Machine

/-! ### The two bytes of a word -/

/-- R51 in arithmetic form: the high byte shifted up by eight bits beside the low byte. -/
theorem wordOfBytes_eq_or (lo hi : Byte) : wordOfBytes lo hi = lo.setWidth 16 ||| hi.setWidth 16 <<< 8 := by
  apply BitVec.eq_of_getLsbD_eq
  intro i h16
  simp only [wordOfBytes, BitVec.getLsbD_append, BitVec.getLsbD_or, BitVec.getLsbD_setWidth, BitVec.getLsbD_shiftLeft]
  by_cases h8 : i < 8
  · simp [h8, h16]
  · have hlo : lo.getLsbD i = false := BitVec.getLsbD_of_ge lo i (by omega)
    have hi16 : i - 8 < 16 := by omega
    simp [h8, h16, hi16, hlo]

theorem readWord_eq_or (m : Memory) (a : Word) :
    m.readWord a = (m.readByte a).setWidth 16 ||| (m.readByte (a + 1)).setWidth 16 <<< 8 := wordOfBytes_eq_or _ _

/-! ### The bytes after a word store -/

section wordStore

variable {m : Memory} (a v : Word) (h : m.wf = true)
include h

theorem readByte_writeWord_low : (m.writeWord a v).readByte a = loByte v := by
  rw [Memory.readByte, read_writeWord a v _ h, if_neg (toNat_succ_ne a).symm, if_pos rfl]

theorem readByte_writeWord_high : (m.writeWord a v).readByte (a + 1) = hiByte v := by
  rw [Memory.readByte, read_writeWord a v _ h, if_pos rfl]

theorem read_writeWord_of_notMem {x : Nat} (hx : x ∉ wordAddresses a) : (m.writeWord a v).read x = m.read x := by
  simp only [wordAddresses, List.mem_cons, List.not_mem_nil, or_false, not_or] at hx
  obtain ⟨hlow, hhigh⟩ := hx
  rw [read_writeWord a v x h, if_neg hhigh, if_neg hlow]

end wordStore

/-! ### `STORE16` -/

/-- An executed `STORE16` at an even address stores input 0 at input 1, then outputs it (R144). -/
theorem exec_store16_completes {c : Conf} {s : State} (hr : Runs c s) (hout : OutputReady c (spAfterInputs c s))
    (he : WordEven (input1Of c s)) :
    exec (.store16 c) s = .next (completed c (input0Of c s)
      ((afterInputs c s).setMem (s.mem.writeWord (input1Of c s) (input0Of c s)))) := by
  have hcmd : store16Command (input0Of c s) (input1Of c s) (afterInputs c s) =
      .ok (input0Of c s, (afterInputs c s).setMem (s.mem.writeWord (input1Of c s) (input0Of c s))) := by
    simp only [store16Command, memWrite16_plain _ (plain_afterInputs hr) he, bind_of_ok, afterInputs_mem]
  rw [exec_eq_runCommand]
  exact runCommand_completes hr.executed hr.inputs hcmd rfl hout

/-- Without a push the output and flag stages leave the memory as the command left it (R120, R121). -/
theorem completed_mem_of_discard {c : Conf} (h : c.out = .discard) (out : Word) (t : State) :
    (completed c out t).mem = t.mem := by
  simp [completed, h]

/-- Settles O13. The three parts rest on one fact about reading a word, one about the bytes of a stored word, and the whole
next state of `STORE16`. -/
theorem wordsAreLittleEndian : Obligations.WordsAreLittleEndian := by
  refine ⟨fun k a s hp he => ?read, fun a v s hp he hwf => ?write, fun c s hwf hr hd he => ?store⟩
  case read => rw [memRead16_plain hp he, readWord_eq_or]
  case write =>
    refine ⟨s.mem.writeWord a v, memWrite16_plain v hp he, ?_, fun _ => read_writeWord_of_notMem a v hwf⟩
    rw [← readWord_eq_or, readWord_writeWord a v hwf]
  case store =>
    have hout : OutputReady c (spAfterInputs c s) := fun hpush => by simp [hd] at hpush
    refine ⟨_, exec_store16_completes hr hout he, ?_⟩
    rw [completed_mem_of_discard hd, setMem_mem]
    exact ⟨readByte_writeWord_low _ _ hwf, readByte_writeWord_high _ _ hwf, fun _ => read_writeWord_of_notMem _ _ hwf⟩

end Sys2Proof.Machine
end

