-- ==== Sys2Proof/Proofs/Encoding.lean ====
section
/-! SUPPORT. What the fields of the instruction word say (`30_encoding.md` R81 to R87): the configuration read back from an
encoded word, the length told by the two input fields, and the eight conditions. -/

namespace Sys2Proof.Machine

/-! ### Each field of an encoded word reads back -/

@[simp] theorem condOfBits_code (c : Cond) : condOfBits c.code = c := by cases c <;> rfl
@[simp] theorem inputOfBits_code (m : InputMode) : inputOfBits m.code = m := by cases m <;> rfl
@[simp] theorem flagOfBits_code (m : FlagMode) : flagOfBits m.code = m := by cases m <;> rfl
@[simp] theorem outputOfBits_code (m : OutputMode) : outputOfBits m.code = m := by cases m <;> rfl

theorem confOfWord_encodeWord (i : Instr) : confOfWord (encodeWord i) = i.conf := by
  obtain ⟨-, -, hout, hflag, hin1, hin0, hcond⟩ := Laws.encodeFields_fields i.command i.conf
  simp only [confOfWord, encodeWord, hout, hflag, hin1, hin0, hcond, condOfBits_code, inputOfBits_code, flagOfBits_code,
    outputOfBits_code]

/-! ### The configuration of a decoded word -/

/-- Whatever the command field is, the instruction carries the configuration it was given (R88). -/
theorem conf_of_commandOfBits {b : BitVec 6} {c : Conf} {i : Instr} (h : commandOfBits b c = some i) : i.conf = c := by
  unfold commandOfBits at h
  split at h <;> cases h <;> rfl

theorem conf_of_decodeWord {w : Word} {i : Instr} (h : decodeWord w = .ok i) : i.conf = confOfWord w := by
  unfold decodeWord at h
  split at h
  · cases h
  · split at h
    next hcommand => cases h; exact conf_of_commandOfBits hcommand
    next => cases h

/-- All that `decode` does when it answers: it decodes the word, then takes the immediates the word asks for. -/
theorem decode_ok {lo hi : Byte} {bs rest : List Byte} {f : FullInstr} (h : decode (lo :: hi :: bs) = .ok (f, rest)) :
    decodeWord (wordOfBytes lo hi) = .ok f.instr ∧ takeWords f.instr.conf.immCount bs = .ok (f.imms, rest) := by
  rw [decode] at h
  split at h
  · cases h
  next hword =>
    split at h
    next himms => cases h; exact ⟨hword, himms⟩
    next => cases h

/-! ### Lengths (R86) -/

/-- Of the four values of an input field, 1 alone asks for an immediate. -/
theorem immCount_inputOfBits (b : BitVec 2) : 2 * (inputOfBits b).immCount = if b = 1 then 2 else 0 := by
  revert b
  decide

theorem length_confOfWord (w : Word) :
    (confOfWord w).length = 2 + (if bits w 3 2 = 1 then 2 else 0) + (if bits w 5 2 = 1 then 2 else 0) := by
  rw [← immCount_inputOfBits, ← immCount_inputOfBits, Nat.add_assoc, ← Nat.mul_add]
  rfl

theorem length_flatMap_bytesOfWord (ws : List Word) : (ws.flatMap bytesOfWord).length = 2 * ws.length := by
  induction ws with
  | nil => rfl
  | cons w ws ih =>
    simp only [List.flatMap_cons, List.length_append, List.length_cons, ih, bytesOfWord, List.length_nil]
    omega

/-- The encoder gives as many bytes as the configuration says. -/
theorem length_encode {f : FullInstr} (h : f.immsMatch = true) : (encode f).length = f.instr.conf.length := by
  have himms : f.imms.length = f.instr.conf.immCount := by simpa [FullInstr.immsMatch] using h
  rw [encode, List.length_append, length_flatMap_bytesOfWord, himms]
  rfl

theorem length_of_takeWords {n : Nat} {bs rest : List Byte} {ws : List Word} (h : takeWords n bs = .ok (ws, rest)) :
    bs.length = rest.length + 2 * n := by
  induction n, bs using takeWords.induct generalizing ws with
  | case1 bs => cases h; rfl
  | case2 n lo hi bs ws' rest' hrec ih =>
    simp only [takeWords, hrec] at h
    cases h
    have := ih hrec
    simp only [List.length_cons]
    omega
  | case3 n lo hi bs e hrec => simp [takeWords, hrec] at h
  | case4 n bs => simp [takeWords] at h

/-- The decoder takes as many bytes as the configuration says. -/
theorem length_of_decode {lo hi : Byte} {bs rest : List Byte} {f : FullInstr}
    (h : decode (lo :: hi :: bs) = .ok (f, rest)) :
    (lo :: hi :: bs).length = rest.length + (confOfWord (wordOfBytes lo hi)).length := by
  obtain ⟨hword, himms⟩ := decode_ok h
  have hlen := length_of_takeWords himms
  rw [← conf_of_decodeWord hword, Conf.length, List.length_cons, List.length_cons, hlen]
  omega

/-- Settles O6. Both the encoder's and the decoder's count are the configuration's length, which the two input fields tell. -/
theorem lengthFollowsInputFields : Obligations.LengthFollowsInputFields := by
  refine ⟨fun f hf => ?encoder, fun lo hi bs rest f h => ?decoder⟩
  case encoder => rw [length_encode hf, ← confOfWord_encodeWord, length_confOfWord]
  case decoder => rw [length_of_decode h, length_confOfWord]; omega

/-! ### Conditions (R82) -/

/-- The condition field decides by its code: the word whose bits 2:0 are the code of `c` runs under `c`. -/
theorem cond_confOfWord {w : Word} (c : Cond) (h : bits w 0 3 = c.code) : (confOfWord w).cond = c := by
  rw [confOfWord, h, condOfBits_code]

section
variable (fr : Word)

theorem isExecuted_always : isExecuted .always fr = true := rfl

theorem isExecuted_zero : isExecuted .zero fr = true ↔ fr.getLsbD 0 = true := Iff.rfl

theorem isExecuted_nonzero : isExecuted .nonzero fr = true ↔ fr.getLsbD 0 = false := by
  simp [isExecuted, flagZ]

theorem isExecuted_greater : isExecuted .greater fr = true ↔ fr.getLsbD 0 = false ∧ fr.getLsbD 1 = false := by
  simp [isExecuted, flagZ, flagN]

theorem isExecuted_less : isExecuted .less fr = true ↔ fr.getLsbD 1 = true := Iff.rfl

theorem isExecuted_gequal : isExecuted .gequal fr = true ↔ fr.getLsbD 0 = true ∨ fr.getLsbD 1 = false := by
  simp [isExecuted, flagZ, flagN]

theorem isExecuted_lequal : isExecuted .lequal fr = true ↔ fr.getLsbD 0 = true ∨ fr.getLsbD 1 = true := by
  simp [isExecuted, flagZ, flagN]

theorem isExecuted_ovfl : isExecuted .ovfl fr = true ↔ fr.getLsbD 2 = true := Iff.rfl

end

/-- Settles O8. In each row the field's value is the code of one condition, whose predicate on `FR` is its own lemma. -/
theorem conditionsFollowTheTable : Obligations.ConditionsFollowTheTable := by
  refine fun w fr => ⟨fun h => ?always, fun h => ?zero, fun h => ?nonzero, fun h => ?greater, fun h => ?less,
    fun h => ?gequal, fun h => ?lequal, fun h => ?ovfl⟩
  case always => rw [cond_confOfWord .always h, isExecuted_always]
  case zero => rw [cond_confOfWord .zero h, isExecuted_zero]
  case nonzero => rw [cond_confOfWord .nonzero h, isExecuted_nonzero]
  case greater => rw [cond_confOfWord .greater h, isExecuted_greater]
  case less => rw [cond_confOfWord .less h, isExecuted_less]
  case gequal => rw [cond_confOfWord .gequal h, isExecuted_gequal]
  case lequal => rw [cond_confOfWord .lequal h, isExecuted_lequal]
  case ovfl => rw [cond_confOfWord .ovfl h, isExecuted_ovfl]

end Sys2Proof.Machine
end

