-- ==== Sys2Proof/Proofs/Execution.lean ====
section
/-! SUPPORT. The wrapper around every command (`40_execution_model.md` R118 to R121): the inputs, the push, and the output and
flag stages. -/

namespace Sys2Proof.Machine

/-! ### Inputs -/

/-- An input from the stack needs an even `SP` on every platform (R53, R118). -/
theorem fetchInput_misaligned {m : InputMode} {s : State} (hm : readsStack m = true) (h : s.sp.getLsbD 0 = true) :
    fetchInput m s = .fault .misaligned := by
  have hpeek : peek s = .fault .misaligned := memRead16_misaligned h
  cases m with
  | zero => cases hm
  | imm => cases hm
  | peek => rw [fetchInput, hpeek, bind_of_fault]
  | pop => rw [fetchInput, pop, hpeek, bind_of_fault]

/-- Settles O10. The order and the movement of `IP` and `SP` are those of the two fetches in sequence; an odd `SP` stops either
kind of stack input. -/
theorem inputsAreObtainedInOrder : Obligations.InputsAreObtainedInOrder :=
  ⟨fun _ _ hready => fetchInputs_ready hready,
    fun _ hodd => ⟨fetchInput_misaligned rfl hodd, fetchInput_misaligned rfl hodd⟩⟩

/-! ### The push -/

/-- The address below an odd `SP` is odd too, so the store of a push stops (R53, R119). -/
theorem push_misaligned (v : Word) {s : State} (h : s.sp.getLsbD 0 = true) : push v s = .fault .misaligned :=
  memWrite16_misaligned v ((even_sub_two s.sp).trans h)

/-- Settles O11. On a plain platform a push is a word store below `SP`, and the bytes are those of a word store. -/
theorem pushStoresBelow : Obligations.PushStoresBelow := by
  refine ⟨fun v s hp he hwf => ?stores, fun v s hodd => push_misaligned v hodd⟩
  case stores =>
    have hnext : s.sp - 1 = s.sp - 2 + 1 := by bv_omega
    refine ⟨s.mem.writeWord (s.sp - 2) v, push_plain v hp he, readByte_writeWord_low _ v hwf, ?_,
      readWord_writeWord _ v hwf, fun _ => read_writeWord_of_notMem _ v hwf⟩
    rw [hnext, readByte_writeWord_high _ v hwf]

/-! ### The output and flag stages -/

/-- A run of the stages that answers a state passed through each of them in turn (R112, R116). -/
theorem runStages_stages {c : Conf} {cmd : Command} {s t : State} (h : runStages c cmd s = .ok t) :
    ∃ a b out s1 u v, fetchInputs c s = .ok (a, b, s1) ∧ cmd a b s1 = .ok (out, u) ∧
      emitOutput c.out out u = .ok v ∧ t = modifyFlags c.flag out v := by
  simp only [runStages, bind_eq_ok, Result.ok.injEq] at h
  obtain ⟨⟨a, b, s1⟩, hin, ⟨out, u⟩, hcmd, v, hemit, ht⟩ := h
  exact ⟨a, b, out, s1, u, v, hin, hcmd, hemit, ht.symm⟩

theorem emitOutput_discard_eq_ok {out : Word} {u v : State} : emitOutput .discard out u = .ok v ↔ v = u := by
  simp only [emitOutput, Result.ok.injEq, eq_comm]

section flags

variable (fr out : Word)

theorem frWithZN_zero_iff : (frWithZN fr out).getLsbD 0 = true ↔ out = 0 := by
  rw [frWithZN, getLsbD_putBit _ _ _ _ (by decide), getLsbD_putBit _ _ _ _ (by decide)]
  simp

theorem frWithZN_one : (frWithZN fr out).getLsbD 1 = out.getLsbD 15 := by
  rw [frWithZN, getLsbD_putBit _ _ _ _ (by decide), if_pos rfl]

theorem frWithZN_of_two_le {n : Nat} (h : 2 ≤ n) : (frWithZN fr out).getLsbD n = fr.getLsbD n := by
  by_cases hn : n < 16
  · rw [frWithZN, getLsbD_putBit _ _ _ _ hn, getLsbD_putBit _ _ _ _ hn, if_neg (by omega), if_neg (by omega)]
  · rw [BitVec.getLsbD_of_ge _ _ (by omega), BitVec.getLsbD_of_ge _ _ (by omega)]

end flags

/-- Settles O12. The first part takes the stages apart and reads the output stage by its mode; the second is the flag stage, bit
by bit. -/
theorem outputThenFlagStage : Obligations.OutputThenFlagStage := by
  refine ⟨fun c cmd s t h => ?stages, fun out s => ⟨rfl, frWithZN s.fr out, rfl, ?bits⟩⟩
  case stages =>
    obtain ⟨a, b, out, s1, u, v, hin, hcmd, hemit, ht⟩ := runStages_stages h
    refine ⟨a, b, out, s1, u, v, hin, hcmd, fun hd => ?_, fun hp => ?_, ht⟩
    · rw [hd] at hemit; exact emitOutput_discard_eq_ok.1 hemit
    · rw [hp] at hemit; exact hemit
  case bits => exact ⟨frWithZN_zero_iff _ _, frWithZN_one _ _, fun _ => frWithZN_of_two_le _ _⟩

end Sys2Proof.Machine
end

