-- ==== Sys2Proof/Proofs/DataMovement.lean ====
section
/-! SUPPORT. Data movement (`41_data_movement.md`): what each command does to a state on a plain platform and where a misaligned
word stops it, then the instructions as the wrapper around their commands. -/

namespace Sys2Proof.Machine

/-! ### The commands -/

section commands

variable (a b : Word) {s : State}

theorem copyCommand_eq (s : State) : copyCommand a b s = .ok (a, s) := rfl

/-- A frame slot is aligned exactly when `BP` is, whatever the index (R141). -/
theorem getCommand_plain (hp : PlainPlatform s.cfg) (he : WordEven s.bp) :
    getCommand a b s = .ok (s.mem.readWord (s.bp + 2 * a), s) := by
  have hslot : WordEven (frameAddress a s) := (frameAddress_parity a s).trans he
  rw [getCommand, memRead16_plain hp hslot, bind_of_ok, frameAddress]

theorem getCommand_misaligned (h : s.bp.getLsbD 0 = true) : getCommand a b s = .fault .misaligned := by
  rw [getCommand, memRead16_misaligned ((frameAddress_parity a s).trans h), bind_of_fault]

theorem setCommand_plain (hp : PlainPlatform s.cfg) (he : WordEven s.bp) :
    setCommand a b s = .ok (b, s.setMem (s.mem.writeWord (s.bp + 2 * a) b)) := by
  have hslot : WordEven (frameAddress a s) := (frameAddress_parity a s).trans he
  rw [setCommand, memWrite16_plain b hp hslot, bind_of_ok, frameAddress]

theorem setCommand_misaligned (h : s.bp.getLsbD 0 = true) : setCommand a b s = .fault .misaligned := by
  rw [setCommand, memWrite16_misaligned b ((frameAddress_parity a s).trans h), bind_of_fault]

theorem store16Command_misaligned (h : b.getLsbD 0 = true) : store16Command a b s = .fault .misaligned := by
  rw [store16Command, memWrite16_misaligned a h, bind_of_fault]

theorem load16Command_plain (hp : PlainPlatform s.cfg) (he : WordEven a) :
    load16Command a b s = .ok (s.mem.readWord a, s) := by
  rw [load16Command, memRead16_plain hp he, bind_of_ok]

theorem load16Command_misaligned (h : a.getLsbD 0 = true) : load16Command a b s = .fault .misaligned := by
  rw [load16Command, memRead16_misaligned h, bind_of_fault]

end commands

/-! ### An instruction that runs does what its command does -/

section instructions

variable {i : Instr} {s : State} (hr : Runs i.conf s)
include hr

/-- A command that leaves the parameters and `SP` alone completes where the output can be pushed with the `SP` that the inputs
left (R116, R120). -/
theorem exec_completes {out : Word} {u : State}
    (hcmd : commandOf i (input0Of i.conf s) (input1Of i.conf s) (afterInputs i.conf s) = .ok (out, u))
    (hcfg : u.cfg = s.cfg) (hsp : u.sp = spAfterInputs i.conf s) (hout : OutputReady i.conf (spAfterInputs i.conf s)) :
    exec i s = .next (completed i.conf out u) := by
  rw [exec_eq_runCommand]
  exact runCommand_completes hr.executed hr.inputs hcmd hcfg (hsp ▸ hout)

/-- Where the command stops the instruction stops, before any push (R116). -/
theorem exec_faults {f : Fault}
    (hcmd : commandOf i (input0Of i.conf s) (input1Of i.conf s) (afterInputs i.conf s) = .fault f) :
    exec i s = .fault f := by
  rw [exec_eq_runCommand]
  exact runCommand_faults hr.executed hr.inputs hcmd

end instructions

/-! ### The statements -/

/-- Settles O14. The command of `COPY` is total, so the wrapper alone decides. -/
theorem copyCompletes : Obligations.CopyCompletes := fun c _ hr hout =>
  exec_completes (i := .copy c) hr (copyCommand_eq _ _ _) rfl rfl hout

/-- Settles O15. The inputs leave `BP`, so its parity before the instruction is the slot's. -/
theorem getCompletes : Obligations.GetCompletes := by
  refine fun c s hr => ⟨fun he hout => ?loads, fun hodd => ?stops⟩
  case loads => exact exec_completes (i := .get c) hr (getCommand_plain _ (input1Of c s) (plain_afterInputs hr) he) rfl rfl hout
  case stops => exact exec_faults (i := .get c) hr (getCommand_misaligned _ (input1Of c s) hodd)

/-- Settles O16. As for `GET`, with the store to the slot before the push of the output. -/
theorem setCompletes : Obligations.SetCompletes := by
  refine fun c s hr => ⟨fun he hout => ?stores, fun hodd => ?stops⟩
  case stores => exact exec_completes (i := .set c) hr (setCommand_plain _ _ (plain_afterInputs hr) he) rfl rfl hout
  case stops => exact exec_faults (i := .set c) hr (setCommand_misaligned _ _ hodd)

/-- Settles O18. The even address is the completion that O13 rests on too; an odd one stops in the store. -/
theorem store16Completes : Obligations.Store16Completes := by
  refine fun c s hr => ⟨fun he hout => ?stores, fun hodd => ?stops⟩
  case stores => exact exec_store16_completes hr hout he
  case stops => exact exec_faults (i := .store16 c) hr (store16Command_misaligned _ _ hodd)

/-- Settles O20. The load is aligned exactly when input 0 is even. -/
theorem load16Completes : Obligations.Load16Completes := by
  refine fun c s hr => ⟨fun he hout => ?loads, fun hodd => ?stops⟩
  case loads =>
    exact exec_completes (i := .load16 c) hr (load16Command_plain _ (input1Of c s) (plain_afterInputs hr) he) rfl rfl hout
  case stops => exact exec_faults (i := .load16 c) hr (load16Command_misaligned _ (input1Of c s) hodd)

end Sys2Proof.Machine
end

