-- ==== Sys2Proof/Proofs/SystemRegisters.lean ====
section
/-! SUPPORT. The system registers (`42_system_registers.md`): what a command that reads `FR` outputs and leaves. -/

namespace Sys2Proof.Machine

/-! ### The commands -/

/-- The mask is input 1; input 0 is ignored, and the state is left as it was (R152). -/
theorem frgetCommand_eq (a b : Word) (s : State) : frgetCommand a b s = .ok (s.fr &&& ~~~ b, s) := rfl

/-! ### The statements -/

/-- Settles O23. The command of `FRGET` is total, and the `FR` it reads is the one before the instruction, because obtaining the
inputs moves only `IP` and `SP`. -/
theorem frgetCompletes : Obligations.FrgetCompletes := by
  intro c s hr hout
  have hcmd : frgetCommand (input0Of c s) (input1Of c s) (afterInputs c s) =
      .ok (s.fr &&& ~~~ input1Of c s, afterInputs c s) := by
    rw [frgetCommand_eq, afterInputs_fr]
  exact exec_completes (i := .frget c) hr hcmd rfl rfl hout

end Sys2Proof.Machine
end

