-- ==== Sys2Proof/Proofs/Arithmetic.lean ====
section
/-! SUPPORT. Arithmetic (`43_arithmetic.md`): the 17-bit sum of `ADD` and the 17-bit difference of `SUB` as numbers, read in
their low 16 bits (the output) and in bit 16 (the new `C`). -/

namespace Sys2Proof.Machine

/-! ### The carry-in and the carry (R160) -/

theorem toNat_carryIn (fr : Word) : (carryIn fr).toNat = carryInOf fr := by
  rw [carryIn, carryInOf, flagC, flagCE]
  cases fr.getLsbD 2 <;> cases fr.getLsbD 3 <;> rfl

theorem writeC_eq (b : Bool) (s : State) : writeC b s = { s with fr := withCarry s.fr b } := by
  rw [writeC, putBit_two_eq_withCarry, State.setFR]

/-! ### The 17-bit results (R161, R162) -/

section results

variable (a b : Word) (cin : Bool)

/-- Two words and a carry-in never need an 18th bit, so nothing of the sum is lost (R161). -/
theorem toNat_sum17 : (sum17 a b cin).toNat = a.toNat + b.toNat + cin.toNat := by
  have hcin := cin.toNat_lt
  rw [sum17, BitVec.toNat_add, BitVec.toNat_add, BitVec.toNat_setWidth, BitVec.toNat_setWidth, BitVec.toNat_setWidth,
    BitVec.toNat_ofBool]
  omega

/-- The difference of two words and a carry-in, modulo 2^17 (R162). -/
theorem toNat_diff17 : ((diff17 a b cin).toNat : Int) = ((a.toNat : Int) - b.toNat - cin.toNat) % 131072 := by
  have hcin := cin.toNat_lt
  rw [diff17, BitVec.toNat_sub, BitVec.toNat_sub, BitVec.toNat_setWidth, BitVec.toNat_setWidth, BitVec.toNat_setWidth,
    BitVec.toNat_ofBool]
  omega

theorem setWidth_sum17 : (sum17 a b cin).setWidth 16 = BitVec.ofNat 16 (a.toNat + b.toNat + cin.toNat) := by
  rw [← BitVec.ofNat_toNat, toNat_sum17]

/-- 2^16 divides 2^17, so the low 16 bits are the difference modulo 2^16. -/
theorem setWidth_diff17 : (diff17 a b cin).setWidth 16 = BitVec.ofInt 16 ((a.toNat : Int) - b.toNat - cin.toNat) := by
  have hdiff := toNat_diff17 a b cin
  apply BitVec.eq_of_toNat_eq
  rw [BitVec.toNat_setWidth, BitVec.toNat_ofInt]
  omega

theorem sum17_bit16 : (sum17 a b cin).getLsbD 16 = decide (65536 ≤ a.toNat + b.toNat + cin.toNat) := by
  rw [← toNat_sum17]
  exact BitVec.getLsbD_last _

/-- The difference lies between -2^16 and 2^16, so its 17th bit is its sign: set exactly when a borrow occurs (R162). -/
theorem diff17_bit16 : (diff17 a b cin).getLsbD 16 = decide (a.toNat < b.toNat + cin.toNat) := by
  have hdiff := toNat_diff17 a b cin
  have hcin := cin.toNat_lt
  have hsign : 65536 ≤ (diff17 a b cin).toNat ↔ a.toNat < b.toNat + cin.toNat := by omega
  exact (BitVec.getLsbD_last _).trans (decide_eq_decide.2 hsign)

end results

/-! ### The commands -/

section commands

variable (a b : Word) (s : State)

theorem addCommand_eq : addCommand a b s = .ok (BitVec.ofNat 16 (a.toNat + b.toNat + carryInOf s.fr),
    { s with fr := withCarry s.fr (decide (65536 ≤ a.toNat + b.toNat + carryInOf s.fr)) }) := by
  rw [addCommand, setWidth_sum17, sum17_bit16, toNat_carryIn, writeC_eq]

theorem subCommand_eq : subCommand a b s = .ok (BitVec.ofInt 16 ((a.toNat : Int) - b.toNat - carryInOf s.fr),
    { s with fr := withCarry s.fr (decide (a.toNat < b.toNat + carryInOf s.fr)) }) := by
  rw [subCommand, setWidth_diff17, diff17_bit16, toNat_carryIn, writeC_eq]

end commands

/-! ### The statements -/

/-- Settles O28. The command of `ADD` is total, and the `FR` that gives its carry-in is the one before the instruction. -/
theorem addCompletes : Obligations.AddCompletes := fun c _ hr hout =>
  exec_completes (i := .add c) hr (addCommand_eq _ _ _) rfl rfl hout

/-- Settles O29. As for `ADD`, with the borrow in place of the carry. -/
theorem subCompletes : Obligations.SubCompletes := fun c _ hr hout =>
  exec_completes (i := .sub c) hr (subCommand_eq _ _ _) rfl rfl hout

end Sys2Proof.Machine
end

