-- ==== Sys2Proof/Proofs/Logic.lean ====
section
/-! SUPPORT. Logic, extension, rotates and shifts (`44_logic_shift.md`): the concatenations of bit fields that the rules write
are the word operations that they name, and every command of this family is total and leaves the state alone (R169). -/

namespace Sys2Proof.Machine

/-! ### The outputs as word operations (R173 to R180) -/

section outputs

variable (a : Word)

/-- Complementing all 16 bits is subtracting from the word that has all of them set (R173). -/
theorem not_eq_allOnes_sub : ~~~ a = 0xFFFF - a := (BitVec.allOnes_sub_eq_not a).symm

theorem getLsbD_bits (lo n i : Nat) : (bits a lo n).getLsbD i = (decide (i < n) && a.getLsbD (lo + i)) :=
  BitVec.getLsbD_extractLsb' ..

/-- Each byte mask of R174 is constant on the low and on the high byte. -/
theorem getLsbD_byteMasks {i : Nat} (h : i < 16) :
    (0xFF00 : Word).getLsbD i = decide (8 ≤ i) ∧ (0x00FF : Word).getLsbD i = decide (i < 8) := by
  decide +revert

/-- Bits 7 to 0 stay; above them the masks of R174 put copies of bit 7. -/
theorem getLsbD_signExtendByte {i : Nat} (h16 : i < 16) :
    (signExtendByte a).getLsbD i = if i < 8 then a.getLsbD i else a.getLsbD 7 := by
  obtain ⟨hhigh, hlow⟩ := getLsbD_byteMasks h16
  rw [signExtendByte]
  cases a.getLsbD 7
  case false =>
    rw [if_neg Bool.false_ne_true, BitVec.getLsbD_and, hlow]
    by_cases h8 : i < 8 <;> simp [h8]
  case true =>
    rw [if_pos rfl, BitVec.getLsbD_or, hhigh]
    by_cases h8 : i < 8 <;> simp [h8, Nat.le_of_not_lt]

theorem signExtendByte_eq_signExtend : signExtendByte a = (a.setWidth 8).signExtend 16 := by
  apply BitVec.eq_of_getLsbD_eq
  intro i h16
  rw [getLsbD_signExtendByte a h16, BitVec.getLsbD_signExtend, BitVec.msb_setWidth, BitVec.getLsbD_setWidth]
  by_cases h8 : i < 8 <;> simp [h8, h16]

theorem swapBytes_eq_or : swapBytes a = a <<< 8 ||| a >>> 8 := by
  apply BitVec.eq_of_getLsbD_eq
  intro i h16
  rw [swapBytes, BitVec.getLsbD_append, BitVec.getLsbD_or, BitVec.getLsbD_shiftLeft, BitVec.getLsbD_ushiftRight,
    getLsbD_bits, getLsbD_bits]
  by_cases h8 : i < 8
  · simp [h8]
  · have habove : a.getLsbD (8 + i) = false := BitVec.getLsbD_of_ge a _ (by omega)
    simp [h8, h16, habove]
    omega

/-- Bit 0 is the old bit 15, every other bit the one below it (R175). -/
theorem rotateLeftOne_eq_rotateLeft : rotateLeftOne a = a.rotateLeft 1 := by
  apply BitVec.eq_of_getLsbD_eq
  intro i h16
  rw [rotateLeftOne, BitVec.getLsbD_append, BitVec.getLsbD_rotateLeft, getLsbD_bits, getLsbD_bits]
  by_cases h0 : i < 1
  · simp [h0]
  · simp [h0, h16]
    omega

/-- Bit 15 is the old bit 0, every other bit the one above it (R176). -/
theorem rotateRightOne_eq_rotateRight : rotateRightOne a = a.rotateRight 1 := by
  apply BitVec.eq_of_getLsbD_eq
  intro i h16
  rw [rotateRightOne, BitVec.getLsbD_append, BitVec.getLsbD_rotateRight, getLsbD_bits, getLsbD_bits]
  by_cases h15 : i < 15
  · simp [h15]
  · simp [h15, h16]
    omega

/-- Bit 15 stays, every other bit is the one above it (R178). -/
theorem shiftRightArith_eq_sshiftRight : shiftRightArith a = a.sshiftRight 1 := by
  apply BitVec.eq_of_getLsbD_eq
  intro i h16
  rw [shiftRightArith, BitVec.getLsbD_append, BitVec.getLsbD_sshiftRight, getLsbD_bits, getLsbD_bits]
  by_cases h15 : i < 15
  · have hin : 1 + i < 16 := by omega
    simp [h15, h16, hin]
  · have htop : i = 15 := by omega
    subst htop
    rfl

/-- Halving that rounds toward minus infinity, the rounding of `/` on the integers for a positive divisor (R178). -/
theorem shiftRightArith_eq_half : shiftRightArith a = BitVec.ofInt 16 (a.toInt / 2) := by
  rw [shiftRightArith_eq_sshiftRight, ← BitVec.ofInt_toInt (x := a.sshiftRight 1), BitVec.toInt_sshiftRight,
    Int.shiftRight_eq_div_pow]
  rfl

theorem shiftLeftOne_eq_shiftLeft : shiftLeftOne a = a <<< 1 := (BitVec.shiftLeft_eq_concat_of_lt (x := a) (n := 1) (by decide)).symm

theorem shiftLeftOne_eq_double : shiftLeftOne a = BitVec.ofNat 16 (2 * a.toNat) := by
  apply BitVec.eq_of_toNat_eq
  rw [shiftLeftOne_eq_shiftLeft, BitVec.toNat_shiftLeft, BitVec.toNat_ofNat, Nat.shiftLeft_eq, pow_one, mul_comm]

theorem shiftRightLogic_eq_ushiftRight : shiftRightLogic a = a >>> 1 :=
  (BitVec.ushiftRight_eq_extractLsb'_of_lt (x := a) (n := 1) (by decide)).symm

theorem shiftRightLogic_eq_half : shiftRightLogic a = BitVec.ofNat 16 (a.toNat / 2) := by
  apply BitVec.eq_of_toNat_eq
  rw [shiftRightLogic_eq_ushiftRight, BitVec.toNat_ushiftRight, BitVec.toNat_ofNat, Nat.shiftRight_eq_div_pow, pow_one]
  omega

end outputs

/-! ### The instructions -/

/-- A command that only computes an output completes with it; since it runs on the state that the inputs left, `C` and every
other field but those of the output stages stay (R169). -/
theorem exec_pure_completes {i : Instr} {f : Word → Word → Word} {s : State} {out : Word}
    (hf : commandOf i = pureCommand f) (hr : Runs i.conf s) (hout : OutputReady i.conf (spAfterInputs i.conf s))
    (heq : f (input0Of i.conf s) (input1Of i.conf s) = out) :
    exec i s = .next (completed i.conf out (afterInputs i.conf s)) := by
  have hcmd : commandOf i (input0Of i.conf s) (input1Of i.conf s) (afterInputs i.conf s) =
      .ok (out, afterInputs i.conf s) := by
    rw [hf, pureCommand, heq]
  exact exec_completes hr hcmd rfl rfl hout

/-! ### The statements -/

/-- Settles O34. `AND`, `OR` and `XOR` are the word operations already; `NOT` is the one stated in arithmetic. -/
theorem bitwiseCommandsComplete : Obligations.BitwiseCommandsComplete := by
  refine fun c s hr hout => ⟨?and, ?or, ?xor, ?not⟩
  case and => exact exec_pure_completes (i := .and c) rfl hr hout rfl
  case or => exact exec_pure_completes (i := .or c) rfl hr hout rfl
  case xor => exact exec_pure_completes (i := .xor c) rfl hr hout rfl
  case not => exact exec_pure_completes (i := .not c) rfl hr hout (not_eq_allOnes_sub _)

/-- Settles O35. Both outputs are the stated word operations bit by bit, on either side of bit 8. -/
theorem signextAndBswapComplete : Obligations.SignextAndBswapComplete := by
  refine fun c s hr hout => ⟨?signext, ?bswap⟩
  case signext => exact exec_pure_completes (i := .signext c) rfl hr hout (signExtendByte_eq_signExtend _)
  case bswap => exact exec_pure_completes (i := .bswap c) rfl hr hout (swapBytes_eq_or _)

/-- Settles O36. Each output is the word's rotate or shift by one position; the shifts are then read as numbers. -/
theorem rotatesAndShiftsComplete : Obligations.RotatesAndShiftsComplete := by
  refine fun c s hr hout => ⟨?rol, ?ror, ?asr, ?lsl, ?lsr⟩
  case rol => exact exec_pure_completes (i := .rol c) rfl hr hout (rotateLeftOne_eq_rotateLeft _)
  case ror => exact exec_pure_completes (i := .ror c) rfl hr hout (rotateRightOne_eq_rotateRight _)
  case asr => exact exec_pure_completes (i := .asr c) rfl hr hout (shiftRightArith_eq_half _)
  case lsl => exact exec_pure_completes (i := .lsl c) rfl hr hout (shiftLeftOne_eq_double _)
  case lsr => exact exec_pure_completes (i := .lsr c) rfl hr hout (shiftRightLogic_eq_half _)

end Sys2Proof.Machine
end

