-- ==== Sys2Proof/Proofs/WordCodec.lean ====
section
/-! SUPPORT. The instruction word as a code (`30_encoding.md` R81 to R97): the encoder and the decoder undo each other, with the
immediates and for the word alone, and the reserved words are refused by name. -/

namespace Sys2Proof.Machine

/-! ### Encoding, then decoding -/

/-- The command map and the command field of an instruction agree, row by row of R95. -/
theorem commandOfBits_command (i : Instr) : commandOfBits i.command i.conf = some i := by
  cases i <;> rfl

theorem decodeWord_encodeWord (i : Instr) : decodeWord (encodeWord i) = .ok i := by
  obtain ⟨h15, hcmd, -⟩ := Laws.encodeFields_fields i.command i.conf
  rw [decodeWord, confOfWord_encodeWord, encodeWord, h15, hcmd, commandOfBits_command]
  rfl

/-- Settles O1. Each field of the encoded word reads back, so the decoder sees the command and the configuration encoded. -/
theorem decodeWordOfEncodeWord : Obligations.DecodeWordOfEncodeWord := decodeWord_encodeWord

/-- Words laid out as bytes are taken back, and the bytes after them are left (R51, R87). -/
theorem takeWords_flatMap_bytesOfWord (ws : List Word) (rest : List Byte) :
    takeWords ws.length (ws.flatMap bytesOfWord ++ rest) = .ok (ws, rest) := by
  induction ws with
  | nil => rfl
  | cons w ws ih =>
    simp only [List.length_cons, List.flatMap_cons, bytesOfWord, List.cons_append, List.nil_append, takeWords, ih,
      wordOfBytes_loByte_hiByte]

theorem decode_encode_append {f : FullInstr} (h : f.immsMatch = true) (rest : List Byte) :
    decode (encode f ++ rest) = .ok (f, rest) := by
  have himms : f.imms.length = f.instr.conf.immCount := by simpa [FullInstr.immsMatch] using h
  simp only [encode, bytesOfWord, List.cons_append, List.nil_append, decode, wordOfBytes_loByte_hiByte,
    decodeWord_encodeWord, ← himms, takeWords_flatMap_bytesOfWord]

/-- Settles O2. Well-formedness asks for as many immediates as the word's fields do, whatever the variant is. -/
theorem decodeOfEncodeWithImmediates : Obligations.DecodeOfEncodeWithImmediates := by
  intro v f rest hwf
  rw [FullInstr.wellFormed, Bool.and_eq_true] at hwf
  exact decode_encode_append hwf.2 rest

/-! ### Decoding, then encoding -/

theorem code_condOfBits (b : BitVec 3) : (condOfBits b).code = b := by decide +revert
theorem code_inputOfBits (b : BitVec 2) : (inputOfBits b).code = b := by decide +revert
theorem code_flagOfBits (b : BitVec 1) : (flagOfBits b).code = b := by decide +revert
theorem code_outputOfBits (b : BitVec 1) : (outputOfBits b).code = b := by decide +revert

/-- The map R95 is one to one: an instruction it answers has the command field it was asked for. -/
theorem command_of_commandOfBits {b : BitVec 6} {c : Conf} {i : Instr} (h : commandOfBits b c = some i) :
    i.command = b := by
  unfold commandOfBits at h
  split at h <;> cases h <;> exact BitVec.eq_of_toNat_eq (Eq.symm ‹b.toNat = _›)

/-- The seven fields of R81 cover the word: assembled again they give it back, when bit 15 is 0. -/
theorem encodeFields_bits {w : Word} (h : w.getLsbD 15 = false) : encodeFields (bits w 9 6) (confOfWord w) = w := by
  apply BitVec.eq_of_getLsbD_eq
  intro i hi
  by_cases htop : i = 15
  · rw [htop, (Laws.encodeFields_fields _ _).1, h]
  · simp only [encodeFields, confOfWord, code_condOfBits, code_inputOfBits, code_flagOfBits, code_outputOfBits, bits,
      BitVec.getLsbD_append, BitVec.getLsbD_extractLsb']
    interval_cases i <;> simp at htop ⊢

/-- All that `decodeWord` does when it answers an instruction. -/
theorem decodeWord_eq_ok {w : Word} {i : Instr} (h : decodeWord w = .ok i) :
    w.getLsbD 15 = false ∧ commandOfBits (bits w 9 6) (confOfWord w) = some i := by
  unfold decodeWord at h
  split at h
  · cases h
  next h15 =>
    split at h
    next hcmd => cases h; exact ⟨Bool.eq_false_iff.2 h15, hcmd⟩
    next => cases h

/-- Settles O3. The decoded instruction has the word's command field and configuration, and with bit 15 these are all its
bits. -/
theorem encodeWordOfDecodeWord : Obligations.EncodeWordOfDecodeWord := by
  intro w i h
  obtain ⟨h15, hcmd⟩ := decodeWord_eq_ok h
  rw [encodeWord, command_of_commandOfBits hcmd, conf_of_commandOfBits hcmd, encodeFields_bits h15]

/-! ### Reserved words (R96, R97) -/

theorem commandOfBits_eq_none {b : BitVec 6} {c : Conf} :
    commandOfBits b c = none ↔ b.toNat = 1 ∨ 35 ≤ b.toNat := by
  obtain ⟨n, hn⟩ := b
  unfold commandOfBits
  simp only [BitVec.toNat_ofFin]
  interval_cases n <;> simp

theorem toNat_command_bits (w : Word) : (bits w 9 6).toNat = w.toNat / 512 % 64 := by
  rw [bits, BitVec.extractLsb'_toNat, Nat.shiftRight_eq_div_pow]

theorem decodeWord_eq_reservedBit15 {w : Word} : decodeWord w = .error .reservedBit15 ↔ w.getLsbD 15 = true := by
  unfold decodeWord
  cases w.getLsbD 15
  case true => simp
  case false => cases commandOfBits (bits w 9 6) (confOfWord w) <;> simp

theorem decodeWord_eq_reservedCommand {w : Word} : decodeWord w = .error .reservedCommand ↔
    w.getLsbD 15 = false ∧ (w.toNat / 512 % 64 = 1 ∨ 35 ≤ w.toNat / 512 % 64) := by
  rw [← toNat_command_bits, ← commandOfBits_eq_none (c := confOfWord w), decodeWord]
  cases w.getLsbD 15
  case true => simp
  case false => cases commandOfBits (bits w 9 6) (confOfWord w) <;> simp

/-! ### The fetch (R112) -/

section fetch

variable {s : State}

/-- What the fetch makes of the decoder's answer. -/
def fetchedInstr : Except DecodeError Instr → Result Instr
  | .ok i => .ok i
  | .error .reservedBit15 => .fault .reservedBit15
  | .error .reservedCommand => .fault .reservedCommand
  | .error .truncated => .fault .reservedCommand

/-- The access at `IP` decides first; then the word there is decoded. -/
theorem fetchInstr_eq (s : State) :
    fetchInstr s = (access s.cfg s.ip .word .code).bind fun _ => fetchedInstr (decodeWord (s.mem.readWord s.ip)) := by
  unfold fetchInstr memRead16
  cases access s.cfg s.ip .word .code
  case ok => simp only [bind_of_ok]; rcases decodeWord (s.mem.readWord s.ip) with (_ | _ | _) | _ <;> rfl
  all_goals rfl

theorem fetchedInstr_ne_bus (r : Except DecodeError Instr) : fetchedInstr r ≠ .bus := by
  rcases r with (_ | _ | _) | _ <;> simp [fetchedInstr]

/-- The fetch ends with the `BUS` pin exactly where the platform answers the access at `IP` so. -/
theorem fetchInstr_eq_bus : fetchInstr s = .bus ↔ access s.cfg s.ip .word .code = .bus := by
  rw [fetchInstr_eq, bind_eq_bus]
  simp [fetchedInstr_ne_bus]

theorem fetchInstr_of_decodeWord {i : Instr} (ha : access s.cfg s.ip .word .code = .ok ())
    (h : decodeWord (s.mem.readWord s.ip) = .ok i) : fetchInstr s = .ok i := by
  rw [fetchInstr_eq, ha, bind_of_ok, h, fetchedInstr]

theorem executeOne_of_fetch {i : Instr} (h : fetchInstr s = .ok i) : executeOne s = exec i s := by
  simp only [executeOne, h]

theorem executeOne_of_fetch_fault {f : Fault} (h : fetchInstr s = .fault f) : executeOne s = .fault f := by
  simp only [executeOne, h]

theorem executeOne_of_fetch_bus (h : fetchInstr s = .bus) : executeOne s = .next (raise 2 s) := by
  simp only [executeOne, h]

end fetch

/-- Settles O4. The two refusals are the two tests of the decoder, and the fetch passes each on before the condition is looked
at. -/
theorem reservedWordsAreRefused : Obligations.ReservedWordsAreRefused := by
  refine fun w => ⟨decodeWord_eq_reservedBit15, decodeWord_eq_reservedCommand, fun s hp he hw => ?stops⟩
  case stops =>
    have hfetch : fetchInstr s = fetchedInstr (decodeWord w) := by
      rw [fetchInstr_eq, access_plain_word hp he, bind_of_ok, hw]
    exact ⟨fun h => executeOne_of_fetch_fault (by rw [hfetch, h, fetchedInstr]),
      fun h => executeOne_of_fetch_fault (by rw [hfetch, h, fetchedInstr])⟩

/-- Settles O5. Closed words: the decoder is evaluated on each. -/
theorem sampleWordsDecode : Obligations.SampleWordsDecode := by
  refine ⟨?_, ?_, ?_, ?_, ?_, ?_, ?_⟩ <;> decide

end Sys2Proof.Machine
end

