-- ==== Sys2Proof/Proofs/RegisterCommands.lean ====
section
/-! SUPPORT. Commands on single registers and bytes (`41_data_movement.md`, `42_system_registers.md`), what each does to its state
or where it stops, and the instruction that is not executed (R115). -/

namespace Sys2Proof.Machine

/-! ### The instruction that is not executed -/

/-- Going past the immediates is going to the next sequential instruction (R86, R115). -/
theorem skipImmediates_eq (c : Conf) (s : State) :
    skipImmediates c (s.setIP (s.ip + 2)) = { s with ip := nextIP c s } := by
  obtain ⟨co, m0, m1, fl, ou⟩ := c
  cases m0 <;> cases m1 <;>
    simp [skipImmediates, State.setIP, nextIP, Conf.immCount, InputMode.immCount, BitVec.add_assoc]

theorem exec_skipped {i : Instr} {s : State} (h : isExecuted i.conf.cond s.fr = false) :
    exec i s = .next { s with ip := nextIP i.conf s } := by
  rw [exec_eq_runCommand, runCommand_skipped h, skipImmediates_eq]

/-- Settles O9. The wrapper tests the condition before it touches the platform. -/
theorem notExecutedOnlyAdvancesIP : Obligations.NotExecutedOnlyAdvancesIP := fun _ _ h => exec_skipped h

/-! ### The commands -/

section commands

variable (a b : Word) {s : State}

/-- A byte store needs no alignment (R54). -/
theorem store8Command_plain (hp : PlainPlatform s.cfg) :
    store8Command a b s = .ok (a &&& 0x00FF, s.setMem (s.mem.writeByte b (loByte a))) := by
  rw [store8Command, memWrite8_plain _ hp, bind_of_ok]

theorem load8Command_plain (hp : PlainPlatform s.cfg) :
    load8Command a b s = .ok ((s.mem.readByte a).setWidth 16, s) := by
  rw [load8Command, memRead8_plain hp, bind_of_ok]

theorem cpuidCommand_zero (s : State) : cpuidCommand 0 0 s = .ok (0, s) := rfl

theorem cpuidCommand_nonzero (s : State) {a b : Word} (h : ¬ (a = 0 ∧ b = 0)) :
    cpuidCommand a b s = .fault .cpuidNonzeroInput := by
  rw [cpuidCommand, if_neg h]

theorem haltCommand_eq (s : State) :
    haltCommand a b s = .ok (Config.freeWord s.draws, { s with halted := true, draws := s.draws + 1 }) := rfl

/-- A value without a reserved bit is written to `FR` (R28). -/
theorem writeFR_ok {v : Word} (h : v &&& frReservedMask s.cfg.variant = 0) : writeFR v s = .ok (s.setFR v) :=
  writeFR_eq_ok.2 ⟨h, rfl⟩

theorem writeFR_reserved {v : Word} (h : v &&& frReservedMask s.cfg.variant ≠ 0) : writeFR v s = .fault .frReserved := by
  rw [writeFR, if_neg h]

theorem frsetCommand_ok (h : ((a &&& ~~~ b) ||| (s.fr &&& b)) &&& frReservedMask s.cfg.variant = 0) :
    frsetCommand a b s = .ok (s.fr, s.setFR ((a &&& ~~~ b) ||| (s.fr &&& b))) := by
  rw [frsetCommand, writeFR_ok h, bind_of_ok]

theorem frsetCommand_reserved (h : ((a &&& ~~~ b) ||| (s.fr &&& b)) &&& frReservedMask s.cfg.variant ≠ 0) :
    frsetCommand a b s = .fault .frReserved := by
  rw [frsetCommand, writeFR_reserved h, bind_of_fault]

theorem bpgetCommand_eq (s : State) : bpgetCommand a b s = .ok (s.bp, s) := rfl

theorem spgetCommand_eq (s : State) : spgetCommand a b s = .ok (s.sp, s) := rfl

theorem bpsetCommand_even (h : WordEven a) : bpsetCommand a b s = .ok (s.bp, s.setBP a) := by
  rw [bpsetCommand, evenPointer_even h, bind_of_ok]

theorem bpsetCommand_odd (h : a.getLsbD 0 = true) : bpsetCommand a b s = .fault .oddPointer := by
  rw [bpsetCommand, evenPointer_odd h, bind_of_fault]

theorem spsetCommand_even (h : WordEven a) : spsetCommand a b s = .ok (s.sp, s.setSP a) := by
  rw [spsetCommand, evenPointer_even h, bind_of_ok]

theorem spsetCommand_odd (h : a.getLsbD 0 = true) : spsetCommand a b s = .fault .oddPointer := by
  rw [spsetCommand, evenPointer_odd h, bind_of_fault]

end commands

/-! ### The statements -/

/-- Settles O17. Every byte of a plain platform takes the store, so the wrapper decides alone. -/
theorem store8Completes : Obligations.Store8Completes := fun c _ hr hout =>
  exec_completes (i := .store8 c) hr (store8Command_plain _ _ (plain_afterInputs hr)) rfl rfl hout

/-- Settles O19. As for `STORE8`, with the load in place of the store. -/
theorem load8Completes : Obligations.Load8Completes := fun c s hr hout =>
  exec_completes (i := .load8 c) hr (load8Command_plain _ (input1Of c s) (plain_afterInputs hr)) rfl rfl hout

/-- Settles O21. The command tests both inputs and leaves the state alone. -/
theorem cpuidCompletes : Obligations.CpuidCompletes := by
  refine fun c s hr => ⟨fun ⟨ha, hb⟩ hout => ?zero, fun hne => ?stops⟩
  case zero =>
    have hcmd : cpuidCommand (input0Of c s) (input1Of c s) (afterInputs c s) = .ok (0, afterInputs c s) := by
      rw [ha, hb, cpuidCommand_zero]
    exact exec_completes (i := .cpuid c) hr hcmd rfl rfl hout
  case stops => exact exec_faults (i := .cpuid c) hr (cpuidCommand_nonzero _ hne)

/-- Settles O22. The command is total, and the draw it makes is the next one of the run. -/
theorem haltCompletes : Obligations.HaltCompletes := fun c s hr hout =>
  exec_completes (i := .halt c) hr (haltCommand_eq (input0Of c s) (input1Of c s) _) rfl rfl hout

/-- Settles O24. The only check is that of the value written, and the `FR` it takes bits from is the one before the
instruction. -/
theorem frsetCompletes : Obligations.FrsetCompletes := by
  refine fun c s hr => ⟨fun hfr hout => ?writes, fun hfr => ?stops⟩
  case writes => exact exec_completes (i := .frset c) hr (frsetCommand_ok (s := afterInputs c s) _ _ hfr) rfl rfl hout
  case stops => exact exec_faults (i := .frset c) hr (frsetCommand_reserved (s := afterInputs c s) _ _ hfr)

/-- Settles O25. Both commands are total; `SPGET` reads the `SP` that the Pop inputs left. -/
theorem bpgetAndSpgetComplete : Obligations.BpgetAndSpgetComplete := by
  refine fun c s hr hout => ⟨?bpget, ?spget⟩
  case bpget =>
    exact exec_completes (i := .bpget c) hr (bpgetCommand_eq (input0Of c s) (input1Of c s) _) rfl rfl hout
  case spget =>
    exact exec_completes (i := .spget c) hr (spgetCommand_eq (input0Of c s) (input1Of c s) _) rfl rfl hout

/-- Settles O26. The parity of input 0 decides before `BP` is written. -/
theorem bpsetCompletes : Obligations.BpsetCompletes := by
  refine fun c s hr => ⟨fun he hout => ?installs, fun hodd => ?stops⟩
  case installs => exact exec_completes (i := .bpset c) hr (bpsetCommand_even _ (input1Of c s) he) rfl rfl hout
  case stops => exact exec_faults (i := .bpset c) hr (bpsetCommand_odd _ (input1Of c s) hodd)

/-- Settles O27. The push needs the new `SP` even, which the command has just checked, and nothing of the old one. -/
theorem spsetCompletes : Obligations.SpsetCompletes := by
  refine fun c s hr => ⟨fun he => ?installs, fun hodd => ?stops⟩
  case installs =>
    rw [exec_eq_runCommand]
    exact runCommand_completes hr.executed hr.inputs (spsetCommand_even _ (input1Of c s) he) rfl fun _ => he
  case stops => exact exec_faults (i := .spset c) hr (spsetCommand_odd _ (input1Of c s) hodd)

end Sys2Proof.Machine
end

