-- ==== Sys2Proof/Proofs/ProductsAndQuotients.lean ====
section
/-! SUPPORT. `MUL`, `DIV` and `MOD` (`43_arithmetic.md` R163 to R166): the 32-bit products and the quotients as integers, and the
law of truncating division. -/

namespace Sys2Proof.Machine

/-! ### Products (R163) -/

section products

variable (a b : Word)

/-- Two words have a product below 2^32, so nothing of it is lost. -/
theorem toNat_product32 : (product32 a b).toNat = a.toNat * b.toNat := by
  have hlt : a.toNat * b.toNat < 65536 * 65536 := Nat.mul_lt_mul'' a.isLt b.isLt
  rw [product32, BitVec.toNat_mul, BitVec.toNat_setWidth_of_le (by decide), BitVec.toNat_setWidth_of_le (by decide)]
  exact Nat.mod_eq_of_lt hlt

theorem setWidth_product32 : (product32 a b).setWidth 16 = BitVec.ofNat 16 (a.toNat * b.toNat) := by
  rw [← BitVec.ofNat_toNat, toNat_product32]

/-- A signed word is at most 2^15 away from zero. -/
theorem natAbs_toInt_le : a.toInt.natAbs ≤ 32768 := by
  have hlow : -32768 ≤ a.toInt := a.le_toInt
  have hhigh : a.toInt < 32768 := a.toInt_lt
  omega

theorem natAbs_toInt_mul_le : (a.toInt * b.toInt).natAbs ≤ 32768 * 32768 := by
  rw [Int.natAbs_mul]
  exact Nat.mul_le_mul (natAbs_toInt_le a) (natAbs_toInt_le b)

theorem toInt_signedProduct32 : (signedProduct32 a b).toInt = a.toInt * b.toInt := by
  have hbound := natAbs_toInt_mul_le a b
  rw [signedProduct32, BitVec.toInt_mul, BitVec.toInt_signExtend_of_le (by decide),
    BitVec.toInt_signExtend_of_le (by decide)]
  exact Int.bmod_eq_of_le_mul_two (by omega) (by omega)

/-- The upper half of a 32-bit number is zero exactly when the number is below 2^16. -/
theorem upperHalf_ne_zero (x : BitVec 32) : (x.extractLsb' 16 16 != 0) = decide (65536 ≤ x.toNat) := by
  have hlt := x.isLt
  have hhalf : (x.extractLsb' 16 16).toNat = x.toNat / 65536 % 65536 := by
    rw [BitVec.extractLsb'_toNat, Nat.shiftRight_eq_div_pow]
  have hiff : x.extractLsb' 16 16 ≠ 0 ↔ 65536 ≤ x.toNat := by
    rw [ne_eq, ← BitVec.toNat_inj, hhalf, BitVec.ofNat_eq_ofNat, BitVec.toNat_zero]
    omega
  rw [← decide_eq_decide.2 hiff]
  exact (decide_not ..).symm

/-- As a two's complement number, a 32-bit word reaches 2^16 unsigned when it is negative or reaches it signed (D8). -/
theorem le_toNat_iff_toInt (x : BitVec 32) : 65536 ≤ x.toNat ↔ x.toInt < 0 ∨ 65536 ≤ x.toInt := by
  have hlt := x.isLt
  rw [BitVec.toInt_eq_toNat_cond]
  split <;> omega

/-- The three readings of the carry are conditions on the exact products (D8). -/
theorem mulCarryOut_eq (m : MulCarry) : mulCarryOut m a b = mulCarryOf m a b := by
  cases m with
  | unsigned => rw [mulCarryOut, mulCarryOf, upperHalf_ne_zero, toNat_product32]
  | signedBits =>
    rw [mulCarryOut, mulCarryOf, upperHalf_ne_zero, ← toInt_signedProduct32]
    exact decide_eq_decide.2 (le_toNat_iff_toInt _)
  | signedFit => rfl

end products

/-! ### Quotients (R166) -/

/-- Rounding toward zero is dividing the absolute values; the sign is that of the product. -/
theorem tdiv_eq_natAbs_div (a b : Int) : a.tdiv b =
    if 0 ≤ a * b then ((a.natAbs / b.natAbs : Nat) : Int) else -((a.natAbs / b.natAbs : Nat) : Int) := by
  have hneg (m n : Nat) : -((m / n : Nat) : Int) =
      if 0 ≤ -((m : Int) * n) then ((m / n : Nat) : Int) else -((m / n : Nat) : Int) := by
    split
    next h =>
      have hmn : m = 0 ∨ n = 0 := by rw [← Nat.mul_eq_zero]; omega
      rcases hmn with rfl | rfl <;> simp
    next => rfl
  obtain ⟨m, rfl | rfl⟩ := a.eq_nat_or_neg <;> obtain ⟨n, rfl | rfl⟩ := b.eq_nat_or_neg <;>
    simp only [Int.neg_tdiv, Int.tdiv_neg, Int.neg_mul, Int.mul_neg, Int.neg_neg, Int.natAbs_neg, Int.natAbs_natCast,
      ← Int.ofNat_tdiv]
  · rw [if_pos (by positivity)]
  · exact hneg m n
  · exact hneg m n
  · rw [if_pos (by positivity)]

/-- `Int.fdiv` rounds toward minus infinity whatever the sign of the divisor is. -/
theorem fdiv_eq_floor (a b : Int) : a.fdiv b = ⌊(a : ℚ) / (b : ℚ)⌋ := by
  obtain ⟨n, rfl | rfl⟩ := b.eq_nat_or_neg
  · rw [Int.fdiv_eq_ediv_of_nonneg _ (Int.natCast_nonneg n), ← Rat.floor_intCast_div_natCast, Int.cast_natCast]
  · rw [← Int.neg_fdiv_neg, Int.neg_neg, Int.fdiv_eq_ediv_of_nonneg _ (Int.natCast_nonneg n),
      ← Rat.floor_intCast_div_natCast, Int.cast_neg, Int.cast_neg, Int.cast_natCast, neg_div, div_neg]

/-- The parameter's quotient is its rounding of the rational number. -/
theorem quotient_eq_roundedQuotient (r : DivRound) (a b : Int) : quotient r a b = roundedQuotient r a b := by
  cases r with
  | truncate => exact tdiv_eq_natAbs_div a b
  | floor => exact fdiv_eq_floor a b

section quotients

variable (a b : Word)

theorem divOutput_truncate : divOutput .truncate a b = a.sdiv b := by
  apply BitVec.eq_of_toInt_eq
  rw [BitVec.toInt_sdiv, divOutput, quotient, BitVec.toInt_ofInt]

theorem modOutput_truncate : modOutput .truncate a b = a.srem b := by
  rw [modOutput, quotient, mul_comm, ← Int.tmod_def, ← BitVec.toInt_srem, BitVec.ofInt_toInt]

end quotients

/-! ### The commands -/

section commands

variable (a b : Word) (s : State)

theorem mulCommand_eq : mulCommand a b s = .ok (BitVec.ofNat 16 (a.toNat * b.toNat),
    { s with fr := withCarry s.fr (mulCarryOf s.cfg.mulCarry a b) }) := by
  rw [mulCommand, setWidth_product32, mulCarryOut_eq, writeC_eq]

theorem divCommand_of_ne_zero {b : Word} (h : b ≠ 0) :
    divCommand a b s = .ok (BitVec.ofInt 16 (roundedQuotient s.cfg.divRound a.toInt b.toInt), s) := by
  rw [divCommand, if_neg h, divOutput, quotient_eq_roundedQuotient]

theorem modCommand_of_ne_zero {b : Word} (h : b ≠ 0) : modCommand a b s =
    .ok (BitVec.ofInt 16 (a.toInt - roundedQuotient s.cfg.divRound a.toInt b.toInt * b.toInt), s) := by
  rw [modCommand, if_neg h, modOutput, quotient_eq_roundedQuotient]

/-- `ARITH` becomes pending where there is an interrupt register (R164, R219). -/
theorem raiseArith_eq : raiseArith s = { s with ir := if s.cfg.variant = .II then s.ir ||| 0x0010 else s.ir } := by
  unfold raiseArith
  cases s.cfg.variant <;> rfl

/-- The draw and the request of a division by zero. -/
theorem draw_raiseArith : draw (raiseArith s) = (Config.freeWord s.draws,
    { s with ir := if s.cfg.variant = .II then s.ir ||| 0x0010 else s.ir, draws := s.draws + 1 }) := by
  rw [raiseArith_eq]
  rfl

theorem divCommand_of_eq_zero {b : Word} (h : b = 0) : divCommand a b s = .ok (Config.freeWord s.draws,
    { s with ir := if s.cfg.variant = .II then s.ir ||| 0x0010 else s.ir, draws := s.draws + 1 }) := by
  rw [divCommand, if_pos h, draw_raiseArith]

theorem modCommand_of_eq_zero {b : Word} (h : b = 0) : modCommand a b s = .ok (Config.freeWord s.draws,
    { s with ir := if s.cfg.variant = .II then s.ir ||| 0x0010 else s.ir, draws := s.draws + 1 }) := by
  rw [modCommand, if_pos h, draw_raiseArith]

end commands

/-! ### The statements -/

/-- Settles O30. The command is total; its output and carry are those of the exact products. -/
theorem mulCompletes : Obligations.MulCompletes := fun c _ hr hout =>
  exec_completes (i := .mul c) hr (mulCommand_eq _ _ _) rfl rfl hout

/-- Settles O31. With a divisor that is not zero both commands are total and leave the state alone. -/
theorem divAndModComplete : Obligations.DivAndModComplete := by
  refine fun c s hr hout hb => ⟨?div, ?mod⟩
  case div => exact exec_completes (i := .div c) hr (divCommand_of_ne_zero _ _ hb) rfl rfl hout
  case mod => exact exec_completes (i := .mod c) hr (modCommand_of_ne_zero _ _ hb) rfl rfl hout

/-- Settles O32. Both commands draw, and request `ARITH` as the variant allows. -/
theorem divisionByZeroCompletes : Obligations.DivisionByZeroCompletes := by
  refine fun c s hr hout hb => ⟨?div, ?mod⟩
  case div => exact exec_completes (i := .div c) hr (divCommand_of_eq_zero _ _ hb) rfl rfl hout
  case mod => exact exec_completes (i := .mod c) hr (modCommand_of_eq_zero _ _ hb) rfl rfl hout

/-- Settles O33. Except for the one overflow, the outputs read as signed numbers are the truncated quotient and its remainder,
for which the law is that of the integers. -/
theorem truncatingDivisionObeysTheDivisionLaw : Obligations.TruncatingDivisionObeysTheDivisionLaw := by
  refine ⟨fun a b hb hover => ?law, by decide, by decide⟩
  case law =>
    have hfits : a ≠ BitVec.intMin 16 ∨ b ≠ -1#16 := not_and_or.1 hover
    have hb0 : b.toInt ≠ 0 := fun h => hb (BitVec.eq_of_toInt_eq (by rw [h]; rfl))
    rw [divOutput_truncate, modOutput_truncate, BitVec.toInt_sdiv_of_ne_or_ne _ _ hfits, BitVec.toInt_srem]
    refine ⟨?sum, ?small, ?sign⟩
    case sum => rw [mul_comm, Int.mul_tdiv_add_tmod]
    case small => rw [Int.natAbs_tmod]; exact Nat.mod_lt _ (Int.natAbs_pos.2 hb0)
    case sign =>
      have hsign := Int.sign_tmod a.toInt b.toInt
      split at hsign
      · exact .inl (Int.sign_eq_zero_iff_zero.1 hsign)
      · exact .inr (by rw [← Int.sign_eq_neg_one_iff_neg, hsign, Int.sign_eq_neg_one_iff_neg])

end Sys2Proof.Machine
end

