-- ==== Sys2Proof/Proofs/Control.lean ====
section
/-! SUPPORT. Control (`45_control.md` R185 to R187): the jump with its two checks, and the requests of `INTR`. -/

namespace Sys2Proof.Machine

/-! ### The jump -/

section jump

variable {target fb : Word} {s : State}

theorem jumpAndSetFlags_ok (he : WordEven target) (hfr : (s.fr ||| fb) &&& frReservedMask s.cfg.variant = 0) :
    jumpAndSetFlags target fb s = .ok ((s.setFR (s.fr ||| fb)).setIP target) :=
  jumpAndSetFlags_eq_ok.2 ⟨he, hfr, rfl⟩

/-- The target is looked at before the flags. -/
theorem jumpAndSetFlags_odd (h : target.getLsbD 0 = true) : jumpAndSetFlags target fb s = .fault .oddPointer := by
  rw [jumpAndSetFlags, evenPointer_odd h, bind_of_fault]

theorem jumpAndSetFlags_reserved (he : WordEven target) (hfr : (s.fr ||| fb) &&& frReservedMask s.cfg.variant ≠ 0) :
    jumpAndSetFlags target fb s = .fault .frReserved := by
  rw [jumpAndSetFlags, evenPointer_even he, bind_of_ok, writeFR_reserved hfr, bind_of_fault]

end jump

/-! ### The commands -/

section commands

variable {a b : Word} {s t : State} {f : Fault}

/-- `SETIP` ends as its jump does, with the next sequential address for the output. -/
theorem setipCommand_ok (h : jumpAndSetFlags a b s = .ok t) : setipCommand a b s = .ok (s.ip, t) := by
  rw [setipCommand, h, bind_of_ok]

theorem setipCommand_fault (h : jumpAndSetFlags a b s = .fault f) : setipCommand a b s = .fault f := by
  rw [setipCommand, h, bind_of_fault]

/-- `ADDIP` is the jump to `IP + input0`, where `IP` is the next sequential address (D3). -/
theorem addipCommand_ok (h : jumpAndSetFlags (s.ip + a) b s = .ok t) : addipCommand a b s = .ok (s.ip, t) := by
  rw [addipCommand, h, bind_of_ok]

theorem addipCommand_fault (h : jumpAndSetFlags (s.ip + a) b s = .fault f) : addipCommand a b s = .fault f := by
  rw [addipCommand, h, bind_of_fault]

variable (b) in
theorem intrCommand_sets (hv : s.cfg.variant = .II) (h : a &&& irReservedMask = 0) :
    intrCommand a b s = .ok (a, s.setIR (s.ir ||| a)) := by
  simp only [intrCommand, hv, if_pos h]

variable (b) in
theorem intrCommand_reserved (hv : s.cfg.variant = .II) (h : a &&& irReservedMask ≠ 0) :
    intrCommand a b s = .fault .irReserved := by
  simp only [intrCommand, hv, if_neg h]

variable (a b) in
theorem intrCommand_on_l (hv : s.cfg.variant = .L) : intrCommand a b s = .fault .intrWithoutIr := by
  simp only [intrCommand, hv]

end commands

/-! ### The statements -/

/-- Settles O37. The three clauses are the three ends of the jump to input 0. -/
theorem setipCompletes : Obligations.SetipCompletes := by
  refine fun c s hr => ⟨fun he hfr hout => ?jumps, fun hodd => ?odd, fun he hfr => ?reserved⟩
  case jumps =>
    have hjump := jumpAndSetFlags_ok (s := afterInputs c s) he hfr
    exact exec_completes (i := .setip c) hr (setipCommand_ok hjump) rfl rfl hout
  case odd => exact exec_faults (i := .setip c) hr (setipCommand_fault (jumpAndSetFlags_odd hodd))
  case reserved =>
    have hjump := jumpAndSetFlags_reserved (s := afterInputs c s) he hfr
    exact exec_faults (i := .setip c) hr (setipCommand_fault hjump)

/-- Settles O38. As for `SETIP`, with the jump relative to the next sequential instruction. -/
theorem addipCompletes : Obligations.AddipCompletes := by
  refine fun c s hr => ⟨fun he hfr hout => ?jumps, fun hodd => ?odd, fun he hfr => ?reserved⟩
  case jumps =>
    have hjump := jumpAndSetFlags_ok (s := afterInputs c s) he hfr
    exact exec_completes (i := .addip c) hr (addipCommand_ok hjump) rfl rfl hout
  case odd =>
    exact exec_faults (i := .addip c) hr (addipCommand_fault (jumpAndSetFlags_odd (s := afterInputs c s) hodd))
  case reserved =>
    have hjump := jumpAndSetFlags_reserved (s := afterInputs c s) he hfr
    exact exec_faults (i := .addip c) hr (addipCommand_fault hjump)

/-- Settles O39. The variant is tested before the reserved bits of `IR` (R31, D21). -/
theorem intrCompletes : Obligations.IntrCompletes := by
  refine fun c s hr => ⟨fun hv h hout => ?sets, fun hv h => ?reserved, fun hv => ?onL⟩
  case sets =>
    exact exec_completes (i := .intr c) hr (intrCommand_sets (s := afterInputs c s) (input1Of c s) hv h) rfl rfl hout
  case reserved => exact exec_faults (i := .intr c) hr (intrCommand_reserved (s := afterInputs c s) (input1Of c s) hv h)
  case onL =>
    exact exec_faults (i := .intr c) hr (intrCommand_on_l (s := afterInputs c s) (input0Of c s) (input1Of c s) hv)

end Sys2Proof.Machine
end

