-- ==== Sys2Proof/Proofs/CommandEffects.lean ====
section
/-! SUPPORT. An executed instruction as its list of accesses (`20_memory.md` R58): where the platform answers all of them as memory
does, the instruction ends as its command's own checks say; and from that the three ways in which it answers a next state. -/

namespace Sys2Proof.Machine

/-! ### Accesses in sequence -/

theorem bind_assoc {α β γ : Type} (r : Result α) (f : α → Result β) (g : β → Result γ) :
    (r.bind f).bind g = r.bind fun a => (f a).bind g := by
  cases r <;> rfl

/-- Accesses made one after another: the first that plain memory does not answer ends them. -/
def makeAccesses (cfg : Config) : List MemAccess → Result Unit
  | [] => .ok ()
  | x :: xs => (access cfg x.address x.width x.kind).bind fun _ => makeAccesses cfg xs

section accesses

variable {cfg : Config}

theorem makeAccesses_append (xs ys : List MemAccess) :
    makeAccesses cfg (xs ++ ys) = (makeAccesses cfg xs).bind fun _ => makeAccesses cfg ys := by
  induction xs with
  | nil => rfl
  | cons x xs ih => simp only [List.cons_append, makeAccesses, ih, bind_assoc]

theorem makeAccesses_singleton (x : MemAccess) : makeAccesses cfg [x] = access cfg x.address x.width x.kind := by
  rw [makeAccesses]
  cases access cfg x.address x.width x.kind <;> rfl

theorem makeAccesses_eq_ok {xs : List MemAccess} : makeAccesses cfg xs = .ok () ↔ ∀ x ∈ xs, x.isPlain cfg := by
  induction xs with
  | nil => simp [makeAccesses]
  | cons x xs ih =>
    rw [makeAccesses, bind_eq_ok, List.forall_mem_cons, ← ih]
    exact ⟨fun ⟨_, hx, hxs⟩ => ⟨hx, hxs⟩, fun ⟨hx, hxs⟩ => ⟨(), hx, hxs⟩⟩

theorem makeAccesses_eq_bus {before later : List MemAccess} {x : MemAccess} (hb : ∀ y ∈ before, y.isPlain cfg)
    (hx : x.hitsBus cfg) : makeAccesses cfg (before ++ x :: later) = .bus := by
  rw [makeAccesses_append, makeAccesses_eq_ok.2 hb, bind_of_ok, makeAccesses, hitsBus_iff.1 hx, bind_of_bus]

/-- Accesses end with the `BUS` pin only where the platform's rules name one of them. -/
theorem exists_busFault_of_makeAccesses {xs : List MemAccess} (h : makeAccesses cfg xs = .bus) :
    ∃ x ∈ xs, busFault cfg x.address x.width x.kind = true := by
  induction xs with
  | nil => cases h
  | cons x xs ih =>
    rcases bind_eq_bus.1 h with h | ⟨_, _, h⟩
    · exact ⟨x, List.mem_cons_self, (access_eq_bus.1 h).2⟩
    · obtain ⟨y, hy, hbus⟩ := ih h
      exact ⟨y, List.mem_cons_of_mem _ hy, hbus⟩

theorem busFault_of_isPlain {x : MemAccess} (h : x.isPlain cfg) : busFault cfg x.address x.width x.kind = false :=
  (access_eq_ok.1 h).2.1

end accesses

/-! ### The inputs (R118) -/

/-- The accesses that fill the two inputs. -/
def inputAccesses (c : Conf) (s : State) : List MemAccess :=
  inputAccess c.in0 (s.ip + 2) s.sp
    ++ inputAccess c.in1 (if c.in0 = .imm then s.ip + 4 else s.ip + 2) (secondStackAddress c s)

theorem fetchInput_eq (m : InputMode) (s : State) :
    fetchInput m s = (makeAccesses s.cfg (inputAccess m s.ip s.sp)).bind fun _ => .ok (inputValue m s,
      { s with ip := if m = .imm then s.ip + 2 else s.ip, sp := if m = .pop then s.sp + 2 else s.sp }) := by
  cases m <;> simp only [inputAccess, makeAccesses_singleton, fetchInput, pop, peek, memRead16, bind_assoc] <;> rfl

/-- The second input's access is made where the first input left `IP` and `SP`. -/
theorem fetchInputs_eq (c : Conf) (s : State) : fetchInputs c (s.setIP (s.ip + 2)) =
    (makeAccesses s.cfg (inputAccesses c s)).bind fun _ => .ok (input0Of c s, input1Of c s, afterInputs c s) := by
  have haddr : (if c.in0 = .imm then s.ip + 2 + 2 else s.ip + 2) = if c.in0 = .imm then s.ip + 4 else s.ip + 2 := by
    rw [BitVec.add_assoc]
    rfl
  have hall : ∃ r, fetchInputs c (s.setIP (s.ip + 2)) = (makeAccesses s.cfg (inputAccesses c s)).bind fun _ => .ok r := by
    simp only [fetchInputs, fetchInput_eq, bind_assoc, bind_of_ok, inputAccesses, makeAccesses_append, secondStackAddress,
      setIP_ip, setIP_sp, setIP_cfg, haddr]
    exact ⟨_, rfl⟩
  obtain ⟨r, hr⟩ := hall
  cases hacc : makeAccesses s.cfg (inputAccesses c s)
  case ok =>
    rw [hacc, bind_of_ok] at hr
    rw [hr, fetchInputs_eq_ok hr, bind_of_ok]
  all_goals rw [hr, hacc]; rfl

/-! ### The command -/

/-- The state that `DIV` and `MOD` leave: by zero they draw, and request `ARITH` where there is an `IR` (R164, R165). -/
def afterDivision (c : Conf) (s : State) : State :=
  { afterInputs c s with
    ir := if input1Of c s = 0 ∧ s.cfg.variant = .II then s.ir ||| 0x0010 else s.ir
    draws := if input1Of c s = 0 then s.draws + 1 else s.draws }

theorem draw_raiseArith_afterInputs {c : Conf} {s : State} (h : input1Of c s = 0) :
    draw (raiseArith (afterInputs c s)) = (Config.freeWord s.draws, afterDivision c s) := by
  rw [draw_raiseArith, afterDivision]
  simp only [h, true_and, if_true]
  rfl

theorem afterDivision_of_ne_zero {c : Conf} {s : State} (h : input1Of c s ≠ 0) : afterDivision c s = afterInputs c s := by
  rw [afterDivision]
  simp only [h, false_and, if_false]
  rfl

/-- The state that a command leaves when it answers, from the state at the instruction's address. -/
def commandState (i : Instr) (s : State) : State :=
  match i with
  | .set c => { afterInputs c s with mem := s.mem.writeWord (s.bp + 2 * input0Of c s) (input1Of c s) }
  | .store8 c => { afterInputs c s with mem := s.mem.writeByte (input1Of c s) (loByte (input0Of c s)) }
  | .store16 c => { afterInputs c s with mem := s.mem.writeWord (input1Of c s) (input0Of c s) }
  | .halt c => { afterInputs c s with halted := true, draws := s.draws + 1 }
  | .frset c => { afterInputs c s with fr := (input0Of c s &&& ~~~ input1Of c s) ||| (s.fr &&& input1Of c s) }
  | .bpset c => { afterInputs c s with bp := input0Of c s }
  | .spset c => { afterInputs c s with sp := input0Of c s }
  | .add c => writeC ((sum17 (input0Of c s) (input1Of c s) (carryIn s.fr)).getLsbD 16) (afterInputs c s)
  | .sub c => writeC ((diff17 (input0Of c s) (input1Of c s) (carryIn s.fr)).getLsbD 16) (afterInputs c s)
  | .mul c => writeC (mulCarryOut s.cfg.mulCarry (input0Of c s) (input1Of c s)) (afterInputs c s)
  | .div c => afterDivision c s
  | .mod c => afterDivision c s
  | .setip c => { afterInputs c s with ip := input0Of c s, fr := s.fr ||| input1Of c s }
  | .addip c => { afterInputs c s with ip := nextIP c s + input0Of c s, fr := s.fr ||| input1Of c s }
  | .intr c => { afterInputs c s with ir := s.ir ||| input0Of c s }
  | i => afterInputs i.conf s

/-- How a command ends once its access is made: its own checks decide. -/
inductive CommandEnd (i : Instr) (s : State) : Result (Word × State) → Prop where
  | completes (h : commandChecks i s) (out : Word) : CommandEnd i s (.ok (out, commandState i s))
  | stops (h : ¬ commandChecks i s) (f : Fault) : CommandEnd i s (.fault f)

/-- What a command does with the inputs of its instruction: its access, then its end. -/
def FollowsItsAccess (i : Instr) (s : State) : Prop :=
  ∃ r, commandOf i (input0Of i.conf s) (input1Of i.conf s) (afterInputs i.conf s) =
    ((makeAccesses s.cfg (commandAccess i s)).bind fun _ => r) ∧ CommandEnd i s r

section ends

variable {i : Instr} {s : State}

theorem followsItsAccess_of_completes {out : Word} (ha : commandAccess i s = []) (hc : commandChecks i s)
    (h : commandOf i (input0Of i.conf s) (input1Of i.conf s) (afterInputs i.conf s) = .ok (out, commandState i s)) :
    FollowsItsAccess i s :=
  ⟨_, by rw [ha, h, makeAccesses, bind_of_ok], .completes hc out⟩

theorem followsItsAccess_of_stops {f : Fault} (ha : commandAccess i s = []) (hc : ¬ commandChecks i s)
    (h : commandOf i (input0Of i.conf s) (input1Of i.conf s) (afterInputs i.conf s) = .fault f) :
    FollowsItsAccess i s :=
  ⟨_, by rw [ha, h, makeAccesses, bind_of_ok], .stops hc f⟩

theorem followsItsAccess_of_access {x : MemAccess} {out : Word} (ha : commandAccess i s = [x]) (hc : commandChecks i s)
    (h : commandOf i (input0Of i.conf s) (input1Of i.conf s) (afterInputs i.conf s) =
      (access s.cfg x.address x.width x.kind).bind fun _ => .ok (out, commandState i s)) : FollowsItsAccess i s :=
  ⟨_, by rw [ha, makeAccesses_singleton, h], .completes hc out⟩

end ends

/-- Every command follows its access, and where it has checks of its own they decide (R116, R117). -/
theorem command_followsItsAccess (i : Instr) (s : State) : FollowsItsAccess i s := by
  cases i with
  | get c => exact followsItsAccess_of_access rfl trivial (bind_assoc ..)
  | set c => exact followsItsAccess_of_access rfl trivial (bind_assoc ..)
  | store8 c => exact followsItsAccess_of_access rfl trivial (bind_assoc ..)
  | store16 c => exact followsItsAccess_of_access rfl trivial (bind_assoc ..)
  | load8 c => exact followsItsAccess_of_access rfl trivial (bind_assoc ..)
  | load16 c => exact followsItsAccess_of_access rfl trivial (bind_assoc ..)
  | cpuid c =>
    by_cases h : input0Of c s = 0 ∧ input1Of c s = 0
    · exact followsItsAccess_of_completes rfl h (if_pos h)
    · exact followsItsAccess_of_stops rfl h (cpuidCommand_nonzero _ h)
  | frset c =>
    by_cases h : commandChecks (.frset c) s
    · exact followsItsAccess_of_completes rfl h (frsetCommand_ok (s := afterInputs c s) _ _ h)
    · exact followsItsAccess_of_stops rfl h (frsetCommand_reserved (s := afterInputs c s) _ _ h)
  | bpset c =>
    by_cases h : WordEven (input0Of c s)
    · exact followsItsAccess_of_completes rfl h (bpsetCommand_even _ (input1Of c s) h)
    · exact followsItsAccess_of_stops rfl h (bpsetCommand_odd _ (input1Of c s) (Bool.eq_true_of_not_eq_false h))
  | spset c =>
    by_cases h : WordEven (input0Of c s)
    · exact followsItsAccess_of_completes rfl h (spsetCommand_even _ (input1Of c s) h)
    · exact followsItsAccess_of_stops rfl h (spsetCommand_odd _ (input1Of c s) (Bool.eq_true_of_not_eq_false h))
  | div c =>
    by_cases h : input1Of c s = 0
    · exact followsItsAccess_of_completes rfl trivial ((if_pos h).trans (congrArg _ (draw_raiseArith_afterInputs h)))
    · refine followsItsAccess_of_completes (out := divOutput s.cfg.divRound (input0Of c s) (input1Of c s)) rfl trivial ?_
      rw [commandState, afterDivision_of_ne_zero h]
      exact if_neg h
  | mod c =>
    by_cases h : input1Of c s = 0
    · exact followsItsAccess_of_completes rfl trivial ((if_pos h).trans (congrArg _ (draw_raiseArith_afterInputs h)))
    · refine followsItsAccess_of_completes (out := modOutput s.cfg.divRound (input0Of c s) (input1Of c s)) rfl trivial ?_
      rw [commandState, afterDivision_of_ne_zero h]
      exact if_neg h
  | setip c =>
    by_cases he : WordEven (input0Of c s)
    · by_cases hfr : (s.fr ||| input1Of c s) &&& frReservedMask s.cfg.variant = 0
      · exact followsItsAccess_of_completes rfl ⟨he, hfr⟩ (setipCommand_ok (jumpAndSetFlags_ok (s := afterInputs c s) he hfr))
      · exact followsItsAccess_of_stops rfl (fun h => hfr h.2)
          (setipCommand_fault (jumpAndSetFlags_reserved (s := afterInputs c s) he hfr))
    · exact followsItsAccess_of_stops rfl (fun h => he h.1)
        (setipCommand_fault (jumpAndSetFlags_odd (Bool.eq_true_of_not_eq_false he)))
  | addip c =>
    by_cases he : WordEven (nextIP c s + input0Of c s)
    · by_cases hfr : (s.fr ||| input1Of c s) &&& frReservedMask s.cfg.variant = 0
      · exact followsItsAccess_of_completes rfl ⟨he, hfr⟩ (addipCommand_ok (jumpAndSetFlags_ok (s := afterInputs c s) he hfr))
      · exact followsItsAccess_of_stops rfl (fun h => hfr h.2)
          (addipCommand_fault (jumpAndSetFlags_reserved (s := afterInputs c s) he hfr))
    · exact followsItsAccess_of_stops rfl (fun h => he h.1)
        (addipCommand_fault (jumpAndSetFlags_odd (s := afterInputs c s) (Bool.eq_true_of_not_eq_false he)))
  | intr c =>
    cases hv : s.cfg.variant with
    | L =>
      have hno : ¬ commandChecks (.intr c) s := fun ⟨hv', _⟩ => by rw [hv] at hv'; cases hv'
      exact followsItsAccess_of_stops rfl hno (intrCommand_on_l (input0Of c s) (input1Of c s) hv)
    | II =>
      by_cases h : input0Of c s &&& irReservedMask = 0
      · exact followsItsAccess_of_completes rfl ⟨hv, h⟩ (intrCommand_sets (s := afterInputs c s) (input1Of c s) hv h)
      · exact followsItsAccess_of_stops rfl (fun hc => h hc.2) (intrCommand_reserved (s := afterInputs c s) (input1Of c s) hv h)
  | _ => exact followsItsAccess_of_completes rfl trivial rfl

end Sys2Proof.Machine
end

