-- ==== Sys2Proof/Proofs/NextStates.lean ====
section
/-! SUPPORT. The end of an executed instruction (`40_execution_model.md` R112 to R122), from its accesses and its command's checks:
the three ways in which it answers a next state. -/

namespace Sys2Proof.Machine

/-! ### The state that a command leaves, field by field -/

section fields

variable (i : Instr) (s : State)

theorem commandState_cfg : (commandState i s).cfg = s.cfg := by
  cases i <;> rfl

theorem commandState_ext : (commandState i s).ext = s.ext := by
  cases i <;> rfl

theorem commandState_bp : (commandState i s).bp = if isBpset i = true then input0Of i.conf s else s.bp := by
  cases i <;> rfl

theorem commandState_sp :
    (commandState i s).sp = if isSpset i = true then input0Of i.conf s else spAfterInputs i.conf s := by
  cases i <;> rfl

theorem commandState_ip : (commandState i s).ip = targetIP i s := by
  cases i <;> rfl

theorem commandState_halted : (commandState i s).halted = if isHalt i = true then true else s.halted := by
  cases i <;> rfl

theorem commandState_draws (h : mayDraw i = false) : (commandState i s).draws = s.draws := by
  cases i
  case halt | div | mod => cases h
  all_goals rfl

theorem commandState_ir (h : setsPending i = false) : (commandState i s).ir = s.ir := by
  cases i
  case div | mod | intr => cases h
  all_goals rfl

/-- The push of the output goes below `SP` as the inputs and the command leave it (R120). -/
theorem pushAddress_eq : pushAddress i s = (commandState i s).sp - 2 := by
  cases i <;> rfl

end fields

/-! ### The output stage -/

/-- The access of the output stage. -/
def outputAccess (i : Instr) (s : State) : List MemAccess :=
  if i.conf.out = .push then [⟨pushAddress i s, .word, .data⟩] else []

theorem instrAccesses_eq (i : Instr) (s : State) :
    instrAccesses i s = (inputAccesses i.conf s ++ commandAccess i s) ++ outputAccess i s := rfl

/-- The last two stages make the push, where there is one, and then give the completed state (R120, R121). -/
theorem outputStages_eq (i : Instr) (s : State) (out : Word) :
    ((emitOutput i.conf.out out (commandState i s)).bind fun t => .ok (modifyFlags i.conf.flag out t)) =
      (makeAccesses s.cfg (outputAccess i s)).bind fun _ => .ok (completed i.conf out (commandState i s)) := by
  have hemit : ∃ t, emitOutput i.conf.out out (commandState i s) =
      (makeAccesses s.cfg (outputAccess i s)).bind fun _ => .ok t := by
    rw [outputAccess, pushAddress_eq]
    cases i.conf.out
    case discard => exact ⟨_, rfl⟩
    case push =>
      rw [if_pos rfl, makeAccesses_singleton, emitOutput, push, memWrite16, setSP_cfg, commandState_cfg]
      exact ⟨_, rfl⟩
  obtain ⟨t, ht⟩ := hemit
  cases hacc : makeAccesses s.cfg (outputAccess i s)
  case ok =>
    rw [hacc, bind_of_ok] at ht
    rw [ht, bind_of_ok, bind_of_ok, emitOutput_eq_ok ht]
  all_goals rw [ht, hacc]; rfl

/-! ### The stages together -/

section stages

variable {i : Instr} {s : State}

theorem runStages_eq_bind {r : Result (Word × State)}
    (h : commandOf i (input0Of i.conf s) (input1Of i.conf s) (afterInputs i.conf s) =
      (makeAccesses s.cfg (commandAccess i s)).bind fun _ => r) :
    runStages i.conf (commandOf i) (s.setIP (s.ip + 2)) =
      (makeAccesses s.cfg (inputAccesses i.conf s ++ commandAccess i s)).bind fun _ =>
        r.bind fun res => (emitOutput i.conf.out res.1 res.2).bind fun t => .ok (modifyFlags i.conf.flag res.1 t) := by
  simp only [runStages, fetchInputs_eq, bind_assoc, bind_of_ok, h, makeAccesses_append]

/-- Where its checks hold, an executed instruction makes its accesses, and completes when all of them are made. -/
theorem runStages_of_checks (hc : commandChecks i s) : ∃ out, runStages i.conf (commandOf i) (s.setIP (s.ip + 2)) =
    (makeAccesses s.cfg (instrAccesses i s)).bind fun _ => .ok (completed i.conf out (commandState i s)) := by
  obtain ⟨r, hr, hend⟩ := command_followsItsAccess i s
  cases hend with
  | completes _ out =>
    refine ⟨out, ?_⟩
    rw [runStages_eq_bind hr, instrAccesses_eq, makeAccesses_append _ (outputAccess i s), bind_assoc, ← outputStages_eq]
    rfl
  | stops hno => exact absurd hc hno

/-- Where its checks fail, it stops once the accesses before the push are made. -/
theorem runStages_of_not_checks (hc : ¬ commandChecks i s) : ∃ f, runStages i.conf (commandOf i) (s.setIP (s.ip + 2)) =
    (makeAccesses s.cfg (inputAccesses i.conf s ++ commandAccess i s)).bind fun _ => .fault f := by
  obtain ⟨r, hr, hend⟩ := command_followsItsAccess i s
  cases hend with
  | completes hyes => exact absurd hyes hc
  | stops _ f => exact ⟨f, runStages_eq_bind hr⟩

theorem runStages_eq_ok_completed {t : State} (h : runStages i.conf (commandOf i) (s.setIP (s.ip + 2)) = .ok t) :
    commandChecks i s ∧ (∀ x ∈ instrAccesses i s, x.isPlain s.cfg) ∧
      ∃ out, t = completed i.conf out (commandState i s) := by
  by_cases hc : commandChecks i s
  · obtain ⟨out, hrun⟩ := runStages_of_checks hc
    obtain ⟨hacc, ht⟩ := bind_check_eq_ok.1 (hrun.symm.trans h)
    exact ⟨hc, makeAccesses_eq_ok.1 hacc, out, ht⟩
  · obtain ⟨f, hrun⟩ := runStages_of_not_checks hc
    obtain ⟨_, _, hf⟩ := bind_eq_ok.1 (hrun.symm.trans h)
    cases hf

theorem exists_busFault_of_runStages (h : runStages i.conf (commandOf i) (s.setIP (s.ip + 2)) = .bus) :
    ∃ x ∈ instrAccesses i s, busFault s.cfg x.address x.width x.kind = true := by
  by_cases hc : commandChecks i s
  · obtain ⟨out, hrun⟩ := runStages_of_checks hc
    exact exists_busFault_of_makeAccesses (bind_check_eq_bus.1 (hrun.symm.trans h))
  · obtain ⟨f, hrun⟩ := runStages_of_not_checks hc
    rcases bind_eq_bus.1 (hrun.symm.trans h) with hacc | ⟨_, _, hf⟩
    · obtain ⟨x, hx, hbus⟩ := exists_busFault_of_makeAccesses hacc
      exact ⟨x, List.mem_append_left _ hx, hbus⟩
    · cases hf

end stages

/-! ### The next state of an instruction -/

/-- The next states that an instruction can answer: it is skipped (R115), undone by the `BUS` pin (R211), or it completes with
some output (R112). -/
inductive NextOf (i : Instr) (s : State) : State → Prop where
  | skips (hs : skipped i s = true) (hu : undone i s = false) : NextOf i s { s with ip := nextIP i.conf s }
  | undoes (hs : skipped i s = false) (hu : undone i s = true) : NextOf i s { s with ir := s.ir ||| 0x0004 }
  | completes (hs : skipped i s = false) (hu : undone i s = false) (hc : commandChecks i s) (out : Word) :
    NextOf i s (completed i.conf out (commandState i s))

/-- Everything an instruction can answer a next state with. -/
theorem exec_eq_next {i : Instr} {s t : State} (h : exec i s = .next t) : NextOf i s t := by
  rw [exec_eq_runCommand, runCommand] at h
  cases hx : isExecuted i.conf.cond s.fr
  case false =>
    rw [hx, if_neg Bool.false_ne_true, skipImmediates_eq] at h
    cases h
    exact .skips (by simp [skipped, hx]) (by simp [undone, hx])
  case true =>
    have hs : skipped i s = false := by simp [skipped, hx]
    rw [hx, if_pos rfl] at h
    rcases finishFrom_eq_next.1 h with hok | ⟨hbus, rfl⟩
    · obtain ⟨hc, hplain, out, rfl⟩ := runStages_eq_ok_completed hok
      have hu : undone i s = false := by
        rw [undone, hx, Bool.true_and, List.any_eq_false]
        exact fun x hin => by simp [busFault_of_isPlain (hplain x hin)]
      exact .completes hs hu hc out
    · have hu : undone i s = true := by
        rw [undone, hx, Bool.true_and, List.any_eq_true]
        exact exists_busFault_of_runStages hbus
      exact .undoes hs hu

end Sys2Proof.Machine
end

