-- ==== Sys2Proof/Proofs/Frames.lean ====
section
/-! SUPPORT. The frames of an instruction: what it may write of memory, of the pointers, of `FR` and of the rest of the state, for
every next state on every platform. -/

namespace Sys2Proof.Machine

/-! ### Memory -/

section memory

variable {i : Instr} {s : State}

theorem commandState_mem_of_no_store (h : commandStores i s = []) : (commandState i s).mem = s.mem := by
  cases i
  case set | store8 | store16 => cases h
  all_goals rfl

theorem read_commandState (hwf : s.mem.wf = true) {x : Nat} (hx : x ∉ commandStores i s) :
    (commandState i s).mem.read x = s.mem.read x := by
  cases i
  case set c => exact read_writeWord_of_notMem _ _ hwf hx
  case store8 c => exact (read_writeByte _ _ _ hwf).trans (if_neg fun h => hx (List.mem_singleton.2 h))
  case store16 c => exact read_writeWord_of_notMem _ _ hwf hx
  all_goals rfl

theorem commandState_mem_wf (hwf : s.mem.wf = true) : (commandState i s).mem.wf = true := by
  cases i
  case set c => exact writeWord_wf _ _ hwf
  case store8 c => exact writeByte_wf _ _ hwf
  case store16 c => exact writeWord_wf _ _ hwf
  all_goals exact hwf

theorem completed_mem_of_push {c : Conf} (h : c.out = .push) (out : Word) (t : State) :
    (completed c out t).mem = t.mem.writeWord (t.sp - 2) out := by
  simp [completed, h]

theorem eq_discard_of_ne_push {m : OutputMode} (h : m ≠ .push) : m = .discard := by
  cases m
  · rfl
  · exact absurd rfl h

theorem completed_mem_of_no_store (h : storedAddresses i s = []) (out : Word) :
    (completed i.conf out (commandState i s)).mem = s.mem := by
  obtain ⟨hcmd, hpush⟩ := List.append_eq_nil_iff.1 h
  have hd : i.conf.out = .discard := eq_discard_of_ne_push fun hp => by rw [if_pos hp] at hpush; cases hpush
  rw [completed_mem_of_discard hd, commandState_mem_of_no_store hcmd]

theorem read_completed (hwf : s.mem.wf = true) {x : Nat} (hx : x ∉ storedAddresses i s) (out : Word) :
    (completed i.conf out (commandState i s)).mem.read x = s.mem.read x := by
  rw [storedAddresses, List.mem_append, not_or] at hx
  obtain ⟨hcmd, hpush⟩ := hx
  by_cases hp : i.conf.out = .push
  · rw [if_pos hp, pushAddress_eq] at hpush
    rw [completed_mem_of_push hp, read_writeWord_of_notMem _ _ (commandState_mem_wf hwf) hpush, read_commandState hwf hcmd]
  · rw [completed_mem_of_discard (eq_discard_of_ne_push hp), read_commandState hwf hcmd]

end memory

/-- Settles O40. A skipped and an undone instruction keep all of memory; a completed one stores what its command and its push
store. -/
theorem memoryFrame : Obligations.MemoryFrame := by
  intro i s t h
  cases exec_eq_next h with
  | skips => exact ⟨fun _ => rfl, fun _ _ _ => rfl⟩
  | undoes => exact ⟨fun _ => rfl, fun _ _ _ => rfl⟩
  | completes hs hu _ out =>
    refine ⟨fun hkept => ?_, fun hwf _ hx => read_completed hwf hx out⟩
    rw [hs, hu] at hkept
    exact completed_mem_of_no_store (by simpa using hkept) out

/-! ### Pointers -/

theorem completed_sp (c : Conf) (out : Word) (t : State) :
    (completed c out t).sp = t.sp - (if c.out = .push then 2 else 0) := by
  by_cases h : c.out = .push <;> simp [completed, h]

/-- Settles O41. The push moves `SP` alone; the rest is what the command leaves in the three registers. -/
theorem pointerFrame : Obligations.PointerFrame := by
  intro i s t h
  cases exec_eq_next h with
  | skips hs hu => exact ⟨fun _ => ⟨rfl, rfl, rfl⟩, fun h => by simp [hu] at h, fun h => by simp [hs] at h⟩
  | undoes hs hu => exact ⟨fun h => by simp [hs] at h, fun _ => ⟨rfl, rfl, rfl⟩, fun _ h => by simp [hu] at h⟩
  | completes hs hu =>
    refine ⟨fun h => by simp [hs] at h, fun h => by simp [hu] at h, fun _ _ => ⟨?_, ?_, ?_⟩⟩
    · rw [completed_bp, commandState_bp]
    · rw [completed_sp, commandState_sp]
    · rw [completed_ip, commandState_ip]

/-! ### Flags -/

theorem getLsbD_putBit_of_ne (v : Word) (b : Bool) {n k : Nat} (h : k ≠ n) :
    (putBit v n b).getLsbD k = v.getLsbD k := by
  by_cases hk : k < 16
  · rw [getLsbD_putBit v n b k hk, if_neg h]
  · rw [BitVec.getLsbD_of_ge _ _ (by omega), BitVec.getLsbD_of_ge _ _ (by omega)]

section flags

variable {i : Instr} {s : State}

theorem commandState_fr_of_no_write (hw : writesWholeFR i = false) (hc : writesCarry i = false) :
    (commandState i s).fr = s.fr := by
  cases i
  case frset | setip | addip => cases hw
  case add | sub | mul => cases hc
  all_goals rfl

theorem commandState_fr_of_writesCarry (hc : writesCarry i = true) : ∃ b, (commandState i s).fr = putBit s.fr 2 b := by
  cases i
  case add | sub | mul => exact ⟨_, rfl⟩
  all_goals cases hc

theorem getLsbD_commandState_fr (hw : writesWholeFR i = false) {n : Nat} (h : n ≠ 2) :
    (commandState i s).fr.getLsbD n = s.fr.getLsbD n := by
  cases hc : writesCarry i
  case false => rw [commandState_fr_of_no_write hw hc]
  case true =>
    obtain ⟨b, hb⟩ := commandState_fr_of_writesCarry (s := s) hc
    rw [hb, getLsbD_putBit_of_ne _ _ h]

theorem completed_fr (c : Conf) (out : Word) (t : State) :
    (completed c out t).fr = if c.flag = .yes then znOf t.fr out else t.fr := rfl

/-- The flag stage writes `Z` and `N` alone. -/
theorem getLsbD_completed_fr (c : Conf) (out : Word) (t : State) {n : Nat} (h : 2 ≤ n) :
    (completed c out t).fr.getLsbD n = t.fr.getLsbD n := by
  rw [completed_fr, ← frWithZN_eq_znOf]
  split
  · exact frWithZN_of_two_le _ _ h
  · rfl

theorem completed_fr_of_no {c : Conf} (h : c.flag = .no) (out : Word) (t : State) : (completed c out t).fr = t.fr := by
  simp [completed, h]

end flags

/-- Settles O42. A command writes `FR` as a whole, or `C` alone, or not at all; the flag stage then writes `Z` and `N`. -/
theorem flagFrame : Obligations.FlagFrame := by
  intro i s t h
  cases exec_eq_next h with
  | skips => exact ⟨fun _ => rfl, fun _ => ⟨fun _ _ => rfl, fun _ => rfl, fun _ => ⟨rfl, rfl⟩⟩⟩
  | undoes => exact ⟨fun _ => rfl, fun _ => ⟨fun _ _ => rfl, fun _ => rfl, fun _ => ⟨rfl, rfl⟩⟩⟩
  | completes hs hu =>
    refine ⟨fun hkept => by simp [hs, hu] at hkept, fun hw => ⟨fun n hn => ?upper, fun hc => ?carry, fun hf => ?zn⟩⟩
    case upper => rw [getLsbD_completed_fr _ _ _ (by omega), getLsbD_commandState_fr hw (by omega)]
    case carry => rw [getLsbD_completed_fr _ _ _ le_rfl, commandState_fr_of_no_write hw hc]
    case zn =>
      rw [completed_fr_of_no hf]
      exact ⟨getLsbD_commandState_fr hw (by decide), getLsbD_commandState_fr hw (by decide)⟩

/-! ### The rest of the state -/

/-- Settles O43. Completed instructions keep what their command keeps; the output stages touch none of these fields. -/
theorem systemFrame : Obligations.SystemFrame := by
  intro i s t h
  cases exec_eq_next h with
  | skips _ hu => exact ⟨rfl, rfl, fun _ => rfl, fun _ => rfl, fun _ => rfl, fun h => by simp [hu] at h, fun _ _ => rfl⟩
  | undoes hs hu =>
    exact ⟨rfl, rfl, fun _ => rfl, fun _ => rfl, fun h => by simp [hs] at h, fun _ => rfl, fun h => by simp [hu] at h⟩
  | completes hs hu =>
    refine ⟨commandState_cfg i s, commandState_ext i s, fun hk => ?halted, fun hk => ?draws, fun h => by simp [hs] at h,
      fun h => by simp [hu] at h, fun _ hp => ?ir⟩
    case halted =>
      have hh : isHalt i = false := by simpa [hs, hu] using hk
      rw [completed_halted, commandState_halted, hh, if_neg Bool.false_ne_true]
    case draws => rw [completed_draws, commandState_draws i s (by simpa [hs, hu] using hk)]
    case ir => rw [completed_ir, commandState_ir i s hp]

end Sys2Proof.Machine
end

