-- ==== Sys2Proof/Proofs/InterruptEntry.lean ====
section
/-! SUPPORT. Taking one interrupt (`60_exceptions.md` R203 to R207): the entry as its three accesses and the parity of its handler,
the frame it leaves, and the return that takes the frame back. -/

namespace Sys2Proof.Machine

/-! ### Serving one interrupt -/

theorem bind_congr {α β : Type} {r : Result α} {f g : α → Result β} (h : ∀ a, f a = g a) : r.bind f = r.bind g := by
  rw [funext h]

theorem evenPointer_bind {α : Type} (v : Word) (f : Word → Result α) :
    (evenPointer v).bind f = (evenPointer v).bind fun _ => f v := by
  unfold evenPointer
  split <;> rfl

section serving

variable {n : Nat} {s : State}

theorem isTaken_iff {fr : Word} : isTaken n fr = true ↔ n < 4 ∨ fr.getLsbD n = true := by
  simp [isTaken, interruptEnabled]

theorem isTaken_eq_false_iff {fr : Word} : isTaken n fr = false ↔ 4 ≤ n ∧ fr.getLsbD n = false := by
  simp [isTaken, interruptEnabled]

/-- A masked interrupt is dropped (R203). -/
theorem serveInterrupt_masked (h : isTaken n s.fr = false) :
    serveInterrupt n s = .ok { s with ir := s.ir &&& ~~~ (1#16 <<< n) } := by
  rw [serveInterrupt, h]
  rfl

/-- Any other makes the accesses of its entry, then looks at the handler it read (R205). -/
theorem serveInterrupt_taken (h : isTaken n s.fr = true) : serveInterrupt n s =
    (makeAccesses s.cfg (entryAccesses n s)).bind fun _ =>
      (evenPointer (entered n s).ip).bind fun _ => .ok (entered n s) := by
  have hsp : s.sp - 2 - 2 = s.sp - 4 := by bv_omega
  have hfin (u : State) (v : Word) : (disableTaken n (u.setIP v)).setHalted false =
      { u with ip := v, fr := if 4 ≤ n then u.fr &&& ~~~ (1#16 <<< n) else u.fr, halted := false } := by
    unfold disableTaken
    split <;> rfl
  rw [serveInterrupt, if_pos h]
  simp only [enterInterrupt, push, memWrite16, memRead16, bind_assoc, bind_of_ok, setSP_sp, setSP_cfg, setMem_sp, setMem_cfg,
    setIR_sp, setIR_cfg, hsp, hfin, entryAccesses, makeAccesses]
  exact bind_congr fun _ => bind_congr fun _ => bind_congr fun _ => evenPointer_bind _ _

/-- The first push of an entry needs an even `SP` on every platform (R53, U16). -/
theorem serveInterrupt_misaligned (ht : isTaken n s.fr = true) (h : s.sp.getLsbD 0 = true) :
    serveInterrupt n s = .fault .misaligned := by
  have hodd : (s.sp - 2).getLsbD 0 = true := (even_sub_two s.sp).trans h
  rw [serveInterrupt_taken ht, entryAccesses, makeAccesses, access_misaligned hodd, bind_of_fault, bind_of_fault]

theorem even_double (n : Nat) : WordEven (BitVec.ofNat 16 (2 * n)) := by
  rw [WordEven, even_iff, BitVec.toNat_ofNat]
  omega

theorem even_sub_four (v : Word) : (v - 4).getLsbD 0 = v.getLsbD 0 := by
  rw [show v - 4 = v - 2 - 2 by bv_omega, even_sub_two, even_sub_two]

theorem entryAccesses_plain (hp : PlainPlatform s.cfg) (he : WordEven s.sp) :
    makeAccesses s.cfg (entryAccesses n s) = .ok () := by
  have h2 : WordEven (s.sp - 2) := (even_sub_two s.sp).trans he
  have h4 : WordEven (s.sp - 4) := (even_sub_four s.sp).trans he
  refine makeAccesses_eq_ok.2 fun x hx => ?_
  rcases List.mem_cons.1 hx with rfl | hx
  · exact access_plain_word hp h2
  rcases List.mem_cons.1 hx with rfl | hx
  · exact access_plain_word hp h4
  rw [List.mem_singleton.1 hx]
  exact access_plain_word hp (even_double n)

theorem serveInterrupt_enters (ht : isTaken n s.fr = true) (hp : PlainPlatform s.cfg) (he : WordEven s.sp)
    (hip : WordEven (entered n s).ip) : serveInterrupt n s = .ok (entered n s) := by
  rw [serveInterrupt_taken ht, entryAccesses_plain hp he, bind_of_ok, evenPointer_even hip, bind_of_ok]

theorem serveInterrupt_odd_handler (ht : isTaken n s.fr = true) (hp : PlainPlatform s.cfg) (he : WordEven s.sp)
    (hip : (entered n s).ip.getLsbD 0 = true) : serveInterrupt n s = .fault .oddPointer := by
  rw [serveInterrupt_taken ht, entryAccesses_plain hp he, bind_of_ok, evenPointer_odd hip, bind_of_fault]

/-- What a pass leaves when it answers a state: the request dropped, or the entered state with an even handler. -/
theorem serveInterrupt_ends {t : State} (h : serveInterrupt n s = .ok t) :
    (isTaken n s.fr = false ∧ t = { s with ir := s.ir &&& ~~~ (1#16 <<< n) }) ∨
      (isTaken n s.fr = true ∧ WordEven (entered n s).ip ∧ t = entered n s) := by
  cases ht : isTaken n s.fr
  case false =>
    rw [serveInterrupt_masked ht] at h
    exact .inl ⟨rfl, (Result.ok.inj h).symm⟩
  case true =>
    rw [serveInterrupt_taken ht] at h
    obtain ⟨_, _, h⟩ := bind_eq_ok.1 h
    obtain ⟨_, hip, h⟩ := bind_eq_ok.1 h
    exact .inr ⟨rfl, (evenPointer_eq_ok.1 hip).1, (Result.ok.inj h).symm⟩

/-! ### The frame on the stack (R205) -/

theorem readWord_entryMemory_top (hwf : s.mem.wf = true) : (entryMemory n s).readWord (s.sp - 4) = s.ip :=
  readWord_writeWord _ _ (writeWord_wf _ _ hwf)

theorem readWord_entryMemory_mask (hwf : s.mem.wf = true) (he : WordEven s.sp) :
    (entryMemory n s).readWord (s.sp - 2) = 1#16 <<< n := by
  have h2 : WordEven (s.sp - 2) := (even_sub_two s.sp).trans he
  have h4 : WordEven (s.sp - 4) := (even_sub_four s.sp).trans he
  have hne : s.sp - 4 ≠ s.sp - 2 := by bv_omega
  rw [entryMemory, readWord_writeWord_of_ne _ (writeWord_wf _ _ hwf) h4 h2 hne, readWord_writeWord _ _ hwf]

theorem entered_sp_add_two (n : Nat) (s : State) : (entered n s).sp + 2 = s.sp - 2 := by
  rw [entered]
  bv_omega

end serving

/-- Settles O44. An entry that is taken ends at its first access, at its handler's parity, or in the entered state. -/
theorem interruptEntry : Obligations.InterruptEntry := by
  intro n s _ ht
  have htaken : isTaken n s.fr = true := isTaken_iff.2 ht
  refine ⟨serveInterrupt_misaligned htaken, fun hp he => ⟨serveInterrupt_enters htaken hp he,
    serveInterrupt_odd_handler htaken hp he⟩, fun hwf he => ⟨readWord_entryMemory_top hwf, ?mask⟩⟩
  case mask =>
    rw [entered_sp_add_two]
    exact readWord_entryMemory_mask hwf he

/-- Interrupts 0 to 3 neither read nor write `FR`. -/
theorem entered_withFR {n : Nat} (h : n < 4) (s : State) (fr : Word) :
    entered n { s with fr := fr } = { entered n s with fr := fr } := by
  simp only [entered, if_neg (Nat.not_le_of_lt h)]
  rfl

/-- Settles O45. A number from 4 on needs its enable bit; one below 4 does not. -/
theorem maskedInterruptIsDropped : Obligations.MaskedInterruptIsDropped := by
  refine ⟨fun n s h4 _ hoff => ?dropped, fun n s fr h4 hp he hip => ?entered⟩
  case dropped => exact serveInterrupt_masked (isTaken_eq_false_iff.2 ⟨h4, hoff⟩)
  case entered =>
    have htaken : isTaken n fr = true := isTaken_iff.2 (.inl h4)
    rw [← entered_withFR h4]
    exact serveInterrupt_enters (s := { s with fr := fr }) htaken hp he hip

/-! ### The return (R207) -/

theorem completed_of_discard {c : Conf} (hf : c.flag = .no) (hd : c.out = .discard) (out : Word) (t : State) :
    completed c out t = t := by
  simp [completed, hf, hd]

/-- Clearing an enable bit on entry and setting it again on return is setting it (R205, R207). -/
theorem entered_fr_or (n : Nat) (s : State) : (entered n s).fr ||| 1#16 <<< n = s.fr ||| 1#16 <<< n := by
  have hclear : (s.fr &&& ~~~ (1#16 <<< n)) ||| 1#16 <<< n = s.fr ||| 1#16 <<< n := by
    apply BitVec.eq_of_getLsbD_eq
    intro k hk
    simp only [BitVec.getLsbD_or, BitVec.getLsbD_and, BitVec.getLsbD_not, hk]
    cases s.fr.getLsbD k <;> cases (1#16 <<< n).getLsbD k <;> rfl
  rw [entered]
  split
  · exact hclear
  · rfl

/-- The mask words of the eight interrupts have no reserved bit of `FR`. -/
theorem interruptMask_reserved {n : Nat} (h : n < 8) : 1#16 <<< n &&& frReservedMask .II = 0 := by
  interval_cases n <;> decide

theorem or_and_eq_zero {v w m : Word} (hv : v &&& m = 0) (hw : w &&& m = 0) : (v ||| w) &&& m = 0 := by
  rw [BitVec.and_or_distrib_right, hv, hw]
  rfl

/-- Settles O49. The two inputs of the return are the two words of the frame, so `SETIP` jumps to the return address and sets the
bit of the mask word, and the pops take back what the pushes took. -/
theorem interruptReturnResumes : Obligations.InterruptReturnResumes := by
  refine ⟨by decide, fun n s _ h8 ht hv hp hwf hsp hip hhandler hfr => ?_⟩
  have hsp4 : WordEven (entered n s).sp := (even_sub_four s.sp).trans hsp
  have hruns : Runs interruptReturn.conf (entered n s) := ⟨rfl, hp, hhandler, fun _ => hsp4⟩
  have hin0 : input0Of interruptReturn.conf (entered n s) = s.ip := readWord_entryMemory_top hwf
  have hin1 : input1Of interruptReturn.conf (entered n s) = 1#16 <<< n := by
    change (entryMemory n s).readWord ((entered n s).sp + 2) = _
    rw [entered_sp_add_two, readWord_entryMemory_mask hwf hsp]
  have hflags : ((entered n s).fr ||| input1Of interruptReturn.conf (entered n s)) &&&
      frReservedMask (entered n s).cfg.variant = 0 := by
    rw [hin1, entered_fr_or, show (entered n s).cfg.variant = .II from hv]
    exact or_and_eq_zero hfr (interruptMask_reserved h8)
  have hsp' : spAfterInputs interruptReturn.conf (entered n s) = s.sp := by
    change s.sp - 4 + 2 + 2 = s.sp
    bv_omega
  have hjump := (setipCompletes _ _ hruns).1 (hin0 ▸ hip) hflags nofun
  rw [completed_of_discard rfl rfl, hin0, hin1, entered_fr_or, afterInputs, hsp'] at hjump
  exact hjump

end Sys2Proof.Machine
end

