-- ==== Sys2Proof/Proofs/InterruptLoop.lean ====
section
/-! SUPPORT. The interrupt loop (`60_exceptions.md` R205, R206): the scan of the pending bits from the highest down, its closed
form, and the order in which two interrupts are served. -/

namespace Sys2Proof.Machine

/-! ### The highest pending bit (R113) -/

theorem highestSetBitBelow_eq {n m : Nat} {w : Word} (hm : n < m) (hbit : w.getLsbD n = true)
    (htop : ∀ k, n < k → w.getLsbD k = false) : highestSetBitBelow m w = n := by
  induction m with
  | zero => omega
  | succ m ih =>
    rw [highestSetBitBelow]
    by_cases h : n = m
    · rw [← h, if_pos hbit]
    · rw [htop m (by omega), if_neg Bool.false_ne_true]
      exact ih (by omega)

theorem highestSetBit_eq {n : Nat} {w : Word} (hbit : w.getLsbD n = true)
    (htop : ∀ k, n < k → w.getLsbD k = false) : highestSetBit w = n :=
  highestSetBitBelow_eq (BitVec.lt_of_getLsbD hbit) hbit htop

theorem eq_zero_of_getLsbD {w : Word} (h : ∀ k, w.getLsbD k = false) : w = 0 :=
  BitVec.eq_of_getLsbD_eq fun k _ => by rw [h k]; simp

/-! ### The passes of the loop -/

section loop

variable {n k : Nat} {s : State}

theorem interruptLoop_of_ir_zero (k : Nat) (h : s.ir = 0) : interruptLoop k s = .ok s := by
  cases k with
  | zero => rfl
  | succ k => rw [interruptLoop, if_pos h]

/-- A pass serves the highest pending interrupt. -/
theorem interruptLoop_succ (k : Nat) (hbit : s.ir.getLsbD n = true) (htop : ∀ j, n < j → s.ir.getLsbD j = false) :
    interruptLoop (k + 1) s = (serveInterrupt n s).bind (interruptLoop k) := by
  have hir : s.ir ≠ 0 := fun h => by simp [h] at hbit
  rw [interruptLoop, if_neg hir, highestSetBit_eq hbit htop]

/-- With nothing pending from `n` on, the loop is the scan of the bits below `n`: where bit `n - 1` is pending it is the highest,
and the pass that serves it leaves nothing pending from `n - 1` on. -/
theorem interruptLoop_eq_serveDescending (hnk : n ≤ k) (h : ∀ j, n ≤ j → s.ir.getLsbD j = false) :
    interruptLoop k s = serveDescending 0 n s := by
  induction n generalizing k s with
  | zero => exact interruptLoop_of_ir_zero k (eq_zero_of_getLsbD fun j => h j (Nat.zero_le j))
  | succ n ih =>
    rw [serveDescending, Nat.zero_add]
    cases hbit : s.ir.getLsbD n
    case false =>
      rw [if_neg Bool.false_ne_true]
      refine ih (by omega) fun j hj => ?_
      rcases Nat.eq_or_lt_of_le hj with rfl | hlt
      · exact hbit
      · exact h j hlt
    case true =>
      obtain ⟨k, rfl⟩ : ∃ k', k = k' + 1 := ⟨k - 1, by omega⟩
      rw [if_pos rfl, interruptLoop_succ k hbit h]
      cases hserve : serveInterrupt n s
      case ok t =>
        refine ih (by omega) fun j hj => ?_
        rw [serveInterrupt_ir hserve]
        rcases Nat.eq_or_lt_of_le hj with rfl | hlt
        · rw [getLsbD_putBit _ _ _ _ (BitVec.lt_of_getLsbD hbit), if_pos rfl]
        · rw [getLsbD_putBit_of_ne _ _ (by omega), h j hlt]
      all_goals rfl

theorem interruptPhase_eq_serveDescending (s : State) : interruptPhase s = serveDescending 0 16 s :=
  interruptLoop_eq_serveDescending le_rfl fun _ h => BitVec.getLsbD_of_ge _ _ h

/-! ### The closed form of one pass -/

theorem served_of_not_pending (h : s.ir.getLsbD n = false) : served n s = s := by
  simp [served, h]

theorem served_of_taken (h : s.ir.getLsbD n = true) (ht : isTaken n s.fr = true) : served n s = entered n s := by
  rw [served, if_pos h, if_pos (isTaken_iff.1 ht)]

theorem served_of_masked (h : s.ir.getLsbD n = true) (ht : isTaken n s.fr = false) :
    served n s = { s with ir := s.ir &&& ~~~ (1#16 <<< n) } := by
  rw [served, if_pos h, if_neg fun hc => by rw [isTaken_iff.2 hc] at ht; cases ht]

/-- After its pass interrupt `n` is not pending, and the others are as before. -/
theorem getLsbD_served_ir (n j : Nat) (s : State) :
    (served n s).ir.getLsbD j = (decide (j ≠ n) && s.ir.getLsbD j) := by
  cases hbit : s.ir.getLsbD n
  case false =>
    rw [served_of_not_pending hbit]
    by_cases hj : j = n <;> simp [hj, hbit]
  case true =>
    have hn := BitVec.lt_of_getLsbD hbit
    have hir : (served n s).ir = putBit s.ir n false := by
      cases ht : isTaken n s.fr
      · rw [served_of_masked hbit ht]; rfl
      · rw [served_of_taken hbit ht]; rfl
    rw [hir]
    by_cases hj : j = n
    · rw [hj, getLsbD_putBit _ _ _ _ hn]; simp
    · rw [getLsbD_putBit_of_ne _ _ hj]; simp [hj]

theorem served_cfg (n : Nat) (s : State) : (served n s).cfg = s.cfg := by
  unfold served
  split
  · split <;> rfl
  · rfl

theorem served_sp_even (n : Nat) (h : WordEven s.sp) : WordEven (served n s).sp := by
  unfold served
  split
  · split
    · exact (even_sub_four s.sp).trans h
    · exact h
  · exact h

/-- A pass that answers a state answers the served one. -/
theorem serveInterrupt_eq_ok {t : State} (hbit : s.ir.getLsbD n = true) (h : serveInterrupt n s = .ok t) :
    t = served n s := by
  rcases serveInterrupt_ends h with ⟨ht, rfl⟩ | ⟨ht, _, rfl⟩
  · exact (served_of_masked hbit ht).symm
  · exact (served_of_taken hbit ht).symm

theorem serveInterrupt_serves (hbit : s.ir.getLsbD n = true) (hp : PlainPlatform s.cfg) (he : WordEven s.sp)
    (hip : isTaken n s.fr = true → WordEven (entered n s).ip) : serveInterrupt n s = .ok (served n s) := by
  cases ht : isTaken n s.fr
  case false => rw [serveInterrupt_masked ht, served_of_masked hbit ht]
  case true => rw [serveInterrupt_enters ht hp he (hip ht), served_of_taken hbit ht]

/-! ### The closed form of the scan -/

theorem serveDescending_succ_of_pending (hbit : s.ir.getLsbD n = true) :
    serveDescending 0 (n + 1) s = (serveInterrupt n s).bind (serveDescending 0 n) := by
  rw [serveDescending, Nat.zero_add, if_pos hbit]

theorem serveDescending_succ_of_not_pending (hbit : s.ir.getLsbD n = false) :
    serveDescending 0 (n + 1) s = serveDescending 0 n s := by
  rw [serveDescending, Nat.zero_add, hbit, if_neg Bool.false_ne_true]

theorem serveDescending_eq_ok {t : State} (h : serveDescending 0 n s = .ok t) : t = enterDescending n s := by
  induction n generalizing s with
  | zero => exact (Result.ok.inj h).symm
  | succ n ih =>
    rw [enterDescending]
    cases hbit : s.ir.getLsbD n
    case false =>
      rw [serveDescending_succ_of_not_pending hbit] at h
      rw [served_of_not_pending hbit]
      exact ih h
    case true =>
      rw [serveDescending_succ_of_pending hbit] at h
      obtain ⟨u, hu, h⟩ := bind_eq_ok.1 h
      rw [← serveInterrupt_eq_ok hbit hu]
      exact ih h

theorem handlersEven_succ (h : handlersEven (n + 1) s = true) :
    (s.ir.getLsbD n = true → isTaken n s.fr = true → WordEven (entered n s).ip) ∧ handlersEven n (served n s) = true := by
  rw [handlersEven, Bool.and_eq_true, decide_eq_true_iff] at h
  exact ⟨fun hbit ht => h.1 hbit (isTaken_iff.1 ht), h.2⟩

/-- On a plain platform the scan completes where every push and every handler is even. -/
theorem serveDescending_completes (hp : PlainPlatform s.cfg) (he : WordEven s.sp) (hh : handlersEven n s = true) :
    serveDescending 0 n s = .ok (enterDescending n s) := by
  induction n generalizing s with
  | zero => rfl
  | succ n ih =>
    obtain ⟨hip, hrest⟩ := handlersEven_succ hh
    have hscan := ih (s := served n s) (served_cfg n s ▸ hp) (served_sp_even n he) hrest
    rw [enterDescending, ← hscan]
    cases hbit : s.ir.getLsbD n
    case false => rw [serveDescending_succ_of_not_pending hbit, served_of_not_pending hbit]
    case true =>
      rw [serveDescending_succ_of_pending hbit, serveInterrupt_serves hbit hp he (hip hbit), bind_of_ok]

theorem getLsbD_enterDescending_ir (n j : Nat) (s : State) :
    (enterDescending n s).ir.getLsbD j = (decide (n ≤ j) && s.ir.getLsbD j) := by
  induction n generalizing s with
  | zero => simp [enterDescending]
  | succ n ih =>
    rw [enterDescending, ih, getLsbD_served_ir, ← Bool.and_assoc, ← Bool.decide_and]
    congr 2
    simp only [eq_iff_iff]
    omega

end loop

theorem interruptPhase_eq_ok {s t : State} (h : interruptPhase s = .ok t) : t = enterDescending 16 s := by
  rw [interruptPhase_eq_serveDescending] at h
  exact serveDescending_eq_ok h

/-- The phase leaves nothing pending (R206). -/
theorem interruptPhase_ir {s t : State} (h : interruptPhase s = .ok t) : t.ir = 0 := by
  rw [interruptPhase_eq_ok h]
  refine eq_zero_of_getLsbD fun j => ?_
  rw [getLsbD_enterDescending_ir]
  by_cases hj : 16 ≤ j
  · simp [BitVec.getLsbD_of_ge _ _ hj]
  · simp [hj]

/-! ### The boundary of variant II (R110) -/

theorem boundary_of_II {s : State} (hv : s.cfg.variant = .II) : boundary s = boundaryII s := by
  simp only [boundary, hv]

theorem getLsbD_zero_pinBits (p : Pins) : (pinBits p).getLsbD 0 = p.rst := by
  obtain ⟨rst, nmi, irq⟩ := p
  decide +revert

/-- The reset test on `IR` with the pins taken in is the one of `resetRuns` (R209). -/
theorem withPins_ir_zero {s : State} (hv : s.cfg.variant = .II) : (withPins s).ir.getLsbD 0 = s.resetRuns := by
  simp only [withPins, BitVec.getLsbD_or, getLsbD_zero_pinBits, State.resetRuns, hv]

theorem boundaryII_of_no_reset {s : State} (hv : s.cfg.variant = .II) (hr : s.resetRuns = false) :
    boundary s = (interruptPhase (withPins s)).duringEntry := by
  have hbit : (withPins s).ir.getLsbD 0 = false := (withPins_ir_zero hv).trans hr
  change (s.ir ||| pinBits (currentPins s)).getLsbD 0 = false at hbit
  rw [boundary_of_II hv, boundaryII, setExt_ir, setIR_ir, hbit, if_neg Bool.false_ne_true, bind_of_ok]
  rfl

theorem boundaryII_of_reset {s : State} (hv : s.cfg.variant = .II) (hr : s.resetRuns = true) :
    boundary s = ((resetII (withPins s)).bind interruptPhase).duringEntry := by
  have hbit : (withPins s).ir.getLsbD 0 = true := (withPins_ir_zero hv).trans hr
  change (s.ir ||| pinBits (currentPins s)).getLsbD 0 = true at hbit
  rw [boundary_of_II hv, boundaryII, setExt_ir, setIR_ir, hbit, if_pos rfl]
  rfl

/-- Settles O46. The loop is the scan because each pass serves the highest bit and clears it; the scan's closed form and what it
leaves pending are two inductions over the bits. -/
theorem interruptLoopIsTheDescendingScan : Obligations.InterruptLoopIsTheDescendingScan := by
  refine ⟨fun s hv hr => boundaryII_of_no_reset hv hr, interruptPhase_eq_serveDescending, fun s hp he hh => ?completes,
    fun s t h => ⟨interruptPhase_eq_ok h, interruptPhase_ir h⟩⟩
  case completes =>
    rw [interruptPhase_eq_serveDescending]
    exact serveDescending_completes hp he hh

/-! ### Priority (R205) -/

theorem getLsbD_mask (n j : Nat) (hn : n < 16) : (1#16 <<< n).getLsbD j = decide (j = n) := by
  by_cases hj : j < 16
  · exact getLsbD_bitMask n j hj
  · rw [BitVec.getLsbD_of_ge _ _ (by omega), decide_eq_false (by omega)]

/-- With `n` alone pending the loop is one pass. -/
theorem interruptLoop_of_single {n : Nat} {s : State} (k : Nat) (hn : n < 16) (h : s.ir = 1#16 <<< n) :
    interruptLoop (k + 1) s = serveInterrupt n s := by
  have hbits (j : Nat) : s.ir.getLsbD j = decide (j = n) := by rw [h, getLsbD_mask n j hn]
  have hbit : s.ir.getLsbD n = true := by simp [hbits]
  rw [interruptLoop_succ k hbit fun j hj => by rw [hbits, decide_eq_false (by omega)]]
  cases hserve : serveInterrupt n s
  case ok t =>
    refine interruptLoop_of_ir_zero k (eq_zero_of_getLsbD fun j => ?_)
    rw [serveInterrupt_eq_ok hbit hserve, getLsbD_served_ir, hbits]
    by_cases hj : j = n <;> simp [hj]
  all_goals rfl

theorem interruptPhase_of_single {n : Nat} {s : State} (hn : n < 16) (h : s.ir = 1#16 <<< n) :
    interruptPhase s = serveInterrupt n s := interruptLoop_of_single 15 hn h

theorem entryMemory_wf {n : Nat} {s : State} (h : s.mem.wf = true) : (entryMemory n s).wf = true :=
  writeWord_wf _ _ (writeWord_wf _ _ h)

/-- The entry into one interrupt does not mask another. -/
theorem isTaken_entered {m n : Nat} (s : State) (hmn : m ≠ n) : isTaken m (entered n s).fr = isTaken m s.fr := by
  have hfr : (entered n s).fr.getLsbD m = s.fr.getLsbD m := by
    rw [entered]
    split
    · exact getLsbD_putBit_of_ne s.fr false hmn
    · rfl
  rw [isTaken, isTaken, interruptEnabled, interruptEnabled, hfr]

/-- Settles O47. The higher number is the first pass; the lower one is all that the second finds, and its return address is the
`IP` that the first loaded. -/
theorem lowestHandlerRunsFirst : Obligations.LowestHandlerRunsFirst := by
  intro m n s _ hmn h8 hir htm htn hp he hwf hipn hipm
  have hbits (j : Nat) : s.ir.getLsbD j = (decide (j = m) || decide (j = n)) := by
    rw [hir, BitVec.getLsbD_or, getLsbD_mask m j (by omega), getLsbD_mask n j (by omega)]
  have hrest : (entered n s).ir = 1#16 <<< m := by
    refine BitVec.eq_of_getLsbD_eq fun j _ => ?_
    rw [← served_of_taken (by simp [hbits]) (isTaken_iff.2 htn), getLsbD_served_ir, hbits, getLsbD_mask m j (by omega)]
    by_cases hj : j = m
    · simp [hj]; omega
    · simp [hj]
  have hfirst : serveInterrupt n s = .ok (entered n s) := serveInterrupt_enters (isTaken_iff.2 htn) hp he hipn
  have hsecond : serveInterrupt m (entered n s) = .ok (entered m (entered n s)) := by
    have htaken : isTaken m (entered n s).fr = true := (isTaken_entered s (by omega)).trans (isTaken_iff.2 htm)
    exact serveInterrupt_enters htaken hp ((even_sub_four s.sp).trans he) hipm
  refine ⟨?order, readWord_entryMemory_top (entryMemory_wf hwf)⟩
  case order =>
    rw [interruptPhase, interruptLoop_succ (n := n) 15 (by simp [hbits]) fun j hj => by simp [hbits]; omega, hfirst,
      bind_of_ok, interruptLoop_of_single 14 (by omega) hrest, hsecond]

end Sys2Proof.Machine
end

