-- ==== Sys2Proof/Proofs/Boundary.lean ====
section
/-! SUPPORT. The instruction boundary (`40_execution_model.md` R110, R111; `70_reset_and_hazards.md` R250, R252) when nothing
happens, at a pin and in a reset, and the step as the instruction at the state after it. -/

namespace Sys2Proof.Machine

/-! ### A boundary at which nothing happens -/

/-- `IR` with the pins of this boundary taken in, when nothing was pending. -/
theorem withPins_eq {s : State} {p : Pins} {v : Word} (hir : s.ir = 0) (hp : currentPins s = p) (hv : pinBits p = v) :
    withPins s = { s with ir := v, ext := s.ext.tail } := by
  rw [withPins, hir, hp, hv, BitVec.ofNat_eq_ofNat, BitVec.zero_or]

theorem boundary_of_L {s : State} (hv : s.cfg.variant = .L) : boundary s = .ok (boundaryL s) := by
  simp only [boundary, hv]

theorem boundaryL_without_reset {s : State} (h : (currentPins s).rst = false) :
    boundaryL s = { s with ext := s.ext.tail } := by
  rw [boundaryL, h, if_neg Bool.false_ne_true]
  rfl

theorem boundaryL_with_reset {s : State} (h : (currentPins s).rst = true) :
    boundaryL s = { s with
      ip := 0x0000, fr := 0x0000, halted := false
      sp := Config.freeWord s.draws, bp := Config.freeWord (s.draws + 1), draws := s.draws + 2
      ext := s.ext.tail } := by
  rw [boundaryL, h, if_pos rfl, resetL, redrawPointers_eq]
  rfl

/-- With nothing pending and no reset, the boundary of variant II serves what the pins ask for. -/
theorem boundary_of_pins {s : State} {p : Pins} {v : Word} (hvar : s.cfg.variant = .II) (hir : s.ir = 0)
    (hp : currentPins s = p) (hrst : p.rst = false) (hv : pinBits p = v) :
    boundary s = (interruptPhase { s with ir := v, ext := s.ext.tail }).duringEntry := by
  have hr : s.resetRuns = false := by simp [State.resetRuns, hvar, hir, hp, hrst]
  rw [boundaryII_of_no_reset hvar hr, withPins_eq hir hp hv]

theorem boundary_of_quiet {s : State} (h : s.boundaryQuiet) : boundary s = .ok { s with ext := s.ext.tail } := by
  unfold State.boundaryQuiet at h
  cases hv : s.cfg.variant with
  | II =>
    rw [hv] at h
    obtain ⟨hir, hpins⟩ := h
    rw [boundary_of_pins (v := 0) hv hir hpins rfl (by decide), interruptPhase, interruptLoop_of_ir_zero 16 rfl, ← hir]
    rfl
  | L =>
    rw [hv] at h
    rw [boundary_of_L hv, boundaryL_without_reset h]

/-! ### A boundary at which a pin asks for an interrupt (R201) -/

/-- The mask word of an interrupt that a pin makes pending is cleared as it is served. -/
theorem mask_and_not_mask (v : Word) : v &&& ~~~ v = 0 := by simp

theorem entered_of_pin {n : Nat} {s : State} (hir : s.ir = 0) (e : List Pins) :
    entered n { s with ir := 1#16 <<< n, ext := e } = { entered n s with ext := e } := by
  simp only [entered, entryMemory, hir, mask_and_not_mask, BitVec.ofNat_eq_ofNat, BitVec.zero_and]

section pins

variable {n : Nat} {s : State} {p : Pins} (hn : n < 16) (hvar : s.cfg.variant = .II) (hir : s.ir = 0)
  (hpins : currentPins s = p) (hrst : p.rst = false) (hv : pinBits p = 1#16 <<< n)
include hn hvar hir hpins hrst hv

/-- A pin alone asks for one interrupt, which is entered where it is not masked. -/
theorem boundary_enters_pin (ht : isTaken n s.fr = true) (hp : PlainPlatform s.cfg) (he : WordEven s.sp)
    (hip : WordEven (entered n s).ip) : boundary s = .ok { entered n s with ext := s.ext.tail } := by
  rw [boundary_of_pins hvar hir hpins hrst hv, interruptPhase_of_single hn rfl,
    serveInterrupt_enters (s := { s with ir := 1#16 <<< n, ext := s.ext.tail }) ht hp he hip, entered_of_pin hir]
  rfl

/-- Where it is masked the request is dropped. -/
theorem boundary_drops_pin (ht : isTaken n s.fr = false) : boundary s = .ok { s with ext := s.ext.tail } := by
  rw [boundary_of_pins hvar hir hpins hrst hv, interruptPhase_of_single hn rfl,
    serveInterrupt_masked (s := { s with ir := 1#16 <<< n, ext := s.ext.tail }) ht]
  simp only [mask_and_not_mask, ← hir]
  rfl

end pins

theorem pins_eq {p : Pins} {rst nmi irq : Bool} (hr : p.rst = rst) (hn : p.nmi = nmi) (hi : p.irq = irq) :
    p = ⟨rst, nmi, irq⟩ := by
  cases p
  cases hr
  cases hn
  cases hi
  rfl

/-- Settles O48. `NMI` alone asks for interrupt 1, which has no mask; `IRQ` alone for interrupt 7; no pin asks for nothing. -/
theorem pinsAreServedAtTheBoundary : Obligations.PinsAreServedAtTheBoundary := by
  refine fun s hvar hir hp he hrst => ⟨fun hnmi hirq hip => ?nmi, fun hnmi hirq hon hip => ?irq, fun hnmi hirq hoff => ?masked,
    fun hnmi hirq => ?quiet⟩
  case nmi =>
    exact boundary_enters_pin (by decide) hvar hir (pins_eq hrst hnmi hirq) rfl (by decide) (isTaken_iff.2 (.inl (by decide)))
      hp he hip
  case irq =>
    exact boundary_enters_pin (by decide) hvar hir (pins_eq hrst hnmi hirq) rfl (by decide) (isTaken_iff.2 (.inr hon)) hp he hip
  case masked =>
    exact boundary_drops_pin (n := 7) (by decide) hvar hir (pins_eq hrst hnmi hirq) rfl (by decide)
      (isTaken_eq_false_iff.2 ⟨by decide, hoff⟩)
  case quiet =>
    refine boundary_of_quiet ?_
    rw [State.boundaryQuiet, hvar]
    exact ⟨hir, pins_eq hrst hnmi hirq⟩

/-! ### Resets -/

/-- The reset sequence leaves nothing pending, so the interrupt phase after it does nothing. -/
theorem boundary_of_resetII {s t : State} (hv : s.cfg.variant = .II) (hr : s.resetRuns = true)
    (h : resetII (withPins s) = .ok t) : boundary s = .ok t := by
  have hir : t.ir = 0 := by
    obtain ⟨_, _, rfl⟩ := resetII_eq_ok.1 h
    rfl
  rw [boundaryII_of_reset hv hr, h, bind_of_ok, interruptPhase, interruptLoop_of_ir_zero 16 hir]
  rfl

/-- Settles O50. The vector is the one access of the sequence, and its parity the one check. -/
theorem resetSequenceOfII : Obligations.ResetSequenceOfII := by
  refine fun s hv hr hp => ⟨fun he => ?enters, fun hodd => ?stops⟩
  case enters =>
    have hacc : access s.cfg 0x0000 .word .code = .ok () := access_plain_word hp (by decide)
    exact boundary_of_resetII hv hr (resetII_eq_ok.2 ⟨hacc, he, rfl⟩)
  case stops =>
    have hreset : resetII (withPins s) = .fault .oddPointer := by
      rw [resetII, memRead16_plain (s := withPins s) hp (by decide), bind_of_ok,
        evenPointer_odd (v := (withPins s).mem.readWord 0x0000) hodd, bind_of_fault]
    rw [boundaryII_of_reset hv hr, hreset]
    rfl

/-- Settles O51. The boundary of variant L looks at `RST` alone. -/
theorem boundaryOfL : Obligations.BoundaryOfL := by
  refine fun s hv => ⟨fun h => ?reset, fun h => ?nothing⟩
  case reset => rw [boundary_of_L hv, boundaryL_with_reset h]
  case nothing => rw [boundary_of_L hv, boundaryL_without_reset h]

/-! ### The step -/

section step

variable {s b : State}

theorem step_of_halted (hb : boundary s = .ok b) (hh : b.halted = true) : step s = .next b := by
  simp only [step, cycle, hb, afterBoundary, hh, if_true]

theorem step_of_boundary (hb : boundary s = .ok b) (hh : b.halted = false) : step s = executeOne b := by
  simp only [step, cycle, hb, afterBoundary, hh, Bool.false_eq_true, if_false]

theorem step_of_boundary_fault {f : Fault} (hb : boundary s = .fault f) : step s = .fault f := by
  simp only [step, cycle, hb]

/-- The step runs the instruction that the word at `IP` after the boundary stands for. -/
theorem step_of_decode {i : Instr} (hb : boundary s = .ok b) (hh : b.halted = false)
    (ha : access b.cfg b.ip .word .code = .ok ()) (hd : decodeWord (b.mem.readWord b.ip) = .ok i) : step s = exec i b := by
  rw [step_of_boundary hb hh, executeOne_of_fetch (fetchInstr_of_decodeWord ha hd)]

end step

/-- Settles O52. `IR` is 1 at power-on, so the first boundary is the reset sequence, whatever the pins are. -/
theorem powerOnEntersAtTheResetVector : Obligations.PowerOnEntersAtTheResetVector := by
  intro cfg sp bp ip mem ext hv hp he
  have hr : (State.powerOn cfg sp bp ip mem ext).resetRuns = true := by
    simp [State.resetRuns, State.powerOn, hv]
  exact step_of_boundary ((resetSequenceOfII _ hv hr hp).1 he) rfl

/-- Settles O7. Both parts are the step after a boundary; in the second the boundary only consumes its pins. -/
theorem stepRunsDecodedInstruction : Obligations.StepRunsDecodedInstruction :=
  ⟨fun _ _ _ hb hh ha hd => step_of_decode hb hh ha hd,
    fun _ _ hq hh ha hd => step_of_decode (boundary_of_quiet hq) hh ha hd⟩

end Sys2Proof.Machine
end

