-- ==== Sys2Proof/Proofs/BusPin.lean ====
section
/-! SUPPORT. The `BUS` pin (`60_exceptions.md` R211): where it undoes the instruction it hits, and where it stops the machine. -/

namespace Sys2Proof.Machine

/-! ### In the instruction part -/

theorem raise_two_eq (s : State) : raise 2 s = { s with ir := s.ir ||| 0x0004 } := rfl

/-- An instruction whose stages meet the `BUS` pin is undone. -/
theorem exec_of_bus {i : Instr} {s : State} (hs : skipped i s = false)
    (h : runStages i.conf (commandOf i) (s.setIP (s.ip + 2)) = .bus) : exec i s = .next { s with ir := s.ir ||| 0x0004 } := by
  have hx : isExecuted i.conf.cond s.fr = true := by simpa [skipped] using hs
  rw [exec_eq_runCommand, runCommand, if_pos hx, h, finishFrom, raise_two_eq]

/-- Where the checks fail there is no push; so an access that is hit is then one of those before the push, unless it is the
push itself. -/
theorem accessesBeforePush_eq_append {i : Instr} {s : State} {before later : List MemAccess} {x : MemAccess}
    (h : instrAccesses i s = before ++ x :: later) (hpush : ¬ (i.conf.out = .push ∧ later = [])) :
    ∃ later', inputAccesses i.conf s ++ commandAccess i s = before ++ x :: later' := by
  rw [instrAccesses_eq, outputAccess] at h
  by_cases hp : i.conf.out = .push
  case neg => exact ⟨later, by rwa [if_neg hp, List.append_nil] at h⟩
  case pos =>
    rw [if_pos hp] at h
    rcases List.eq_nil_or_concat later with rfl | ⟨later', y, rfl⟩
    · exact absurd ⟨hp, rfl⟩ hpush
    · rw [List.concat_eq_append, ← List.cons_append, ← List.append_assoc] at h
      exact ⟨later', (List.append_inj' h rfl).1⟩

/-- The stages end at the first access that the `BUS` pin answers, if the checks do not stop them before it. -/
theorem runStages_eq_bus {i : Instr} {s : State} {before later : List MemAccess} {x : MemAccess}
    (hacc : instrAccesses i s = before ++ x :: later) (hb : ∀ y ∈ before, y.isPlain s.cfg) (hx : x.hitsBus s.cfg)
    (hchecks : i.conf.out = .push → later = [] → commandChecks i s) :
    runStages i.conf (commandOf i) (s.setIP (s.ip + 2)) = .bus := by
  by_cases hc : commandChecks i s
  · obtain ⟨out, hrun⟩ := runStages_of_checks hc
    rw [hrun, hacc, makeAccesses_eq_bus hb hx, bind_of_bus]
  · obtain ⟨f, hrun⟩ := runStages_of_not_checks hc
    obtain ⟨later', hbefore⟩ := accessesBeforePush_eq_append hacc fun ⟨hp, hl⟩ => hc (hchecks hp hl)
    rw [hrun, hbefore, makeAccesses_eq_bus hb hx, bind_of_bus]

/-! ### In the reset sequence and in an interrupt entry -/

theorem resetII_eq_bus {s : State} (h : busFault s.cfg 0x0000 .word .code = true) : resetII s = .bus := by
  have hread : memRead16 .code 0x0000 s = .bus := memRead16_eq_bus.2 (access_eq_bus.2 ⟨fun _ => by decide, h⟩)
  rw [resetII, hread, bind_of_bus]

/-- The scan of the bits below `lo + n` is the scan down to `lo` and then the scan of the bits below it. -/
theorem serveDescending_add (lo n : Nat) (s : State) :
    serveDescending 0 (lo + n) s = (serveDescending lo n s).bind (serveDescending 0 lo) := by
  induction n generalizing s with
  | zero => rfl
  | succ n ih =>
    rw [← Nat.add_assoc, serveDescending, serveDescending, Nat.zero_add]
    cases s.ir.getLsbD (lo + n)
    case false => exact ih s
    case true => simp only [if_true, bind_assoc]; exact bind_congr ih

theorem serveInterrupt_cfg {n : Nat} {s t : State} (h : serveInterrupt n s = .ok t) : t.cfg = s.cfg := by
  rcases serveInterrupt_ends h with ⟨_, rfl⟩ | ⟨_, _, rfl⟩ <;> rfl

theorem serveDescending_cfg {lo n : Nat} {s t : State} (h : serveDescending lo n s = .ok t) : t.cfg = s.cfg := by
  induction n generalizing s with
  | zero => rw [← Result.ok.inj h]
  | succ n ih =>
    rw [serveDescending] at h
    split at h
    · obtain ⟨u, hu, h⟩ := bind_eq_ok.1 h
      rw [ih h, serveInterrupt_cfg hu]
    · exact ih h

/-- Whatever was served before it at this boundary, the entry that the `BUS` pin hits ends the phase. -/
theorem interruptPhase_eq_bus {n : Nat} {s t : State} {before later : List MemAccess} {x : MemAccess} (hn : n < 16)
    (hserved : serveDescending (n + 1) (15 - n) s = .ok t) (hbit : t.ir.getLsbD n = true) (ht : isTaken n t.fr = true)
    (hacc : entryAccesses n t = before ++ x :: later) (hb : ∀ y ∈ before, y.isPlain s.cfg) (hx : x.hitsBus s.cfg) :
    interruptPhase s = .bus := by
  have hserve : serveInterrupt n t = .bus := by
    rw [serveInterrupt_taken ht, serveDescending_cfg hserved, hacc, makeAccesses_eq_bus hb hx, bind_of_bus]
  have hsplit : 16 = n + 1 + (15 - n) := by omega
  rw [interruptPhase_eq_serveDescending, hsplit, serveDescending_add, hserved, bind_of_ok,
    serveDescending_succ_of_pending hbit, hserve, bind_of_bus]

/-- Settles O53. In the instruction part the pin's answer ends the stages and is turned into the undoing; in the reset sequence
and in an entry it ends the boundary. -/
theorem busFaultUndoesTheInstruction : Obligations.BusFaultUndoesTheInstruction := by
  refine ⟨fun s b hb hh he hbus => ?fetch, fun i s before later x hs hacc hb hx hchecks => ?access, fun s hv hr hbus => ?reset,
    fun n s t before later x hv hr hn hserved hbit ht hacc hb hx => ?entry⟩
  case fetch =>
    have hfetch : fetchInstr b = .bus := fetchInstr_eq_bus.2 (access_eq_bus.2 ⟨fun _ => he, hbus⟩)
    rw [step_of_boundary hb hh, executeOne_of_fetch_bus hfetch, raise_two_eq]
  case access => exact exec_of_bus hs (runStages_eq_bus hacc hb hx hchecks)
  case reset =>
    rw [boundaryII_of_reset hv hr, resetII_eq_bus (s := withPins s) hbus]
    rfl
  case entry =>
    have hboundary : boundary s = .fault .busErrorDuringEntry := by
      rw [boundaryII_of_no_reset hv hr, interruptPhase_eq_bus hn hserved hbit (isTaken_iff.2 ht) hacc hb hx]
      rfl
    exact ⟨hboundary, step_of_boundary_fault hboundary⟩

end Sys2Proof.Machine
end

