-- ==== Sys2Proof/Proofs/Halting.lean ====
section
/-! SUPPORT. What a completed boundary leaves and what a step keeps; halting, waking, and the end of a run
(`40_execution_model.md` R126, `70_reset_and_hazards.md` R257). -/

namespace Sys2Proof.Machine

/-! ### Everything a boundary can do -/

/-- The states in which a boundary completes: after the interrupt phase or the reset sequence of variant II, after the reset of
variant L, or with the pins consumed and nothing else. -/
inductive BoundaryEnd (s : State) : State → Prop where
  | serves (hv : s.cfg.variant = .II) (hr : s.resetRuns = false) (t : State) (h : interruptPhase (withPins s) = .ok t) :
    BoundaryEnd s t
  | resetsII (hv : s.cfg.variant = .II) (hr : s.resetRuns = true) (he : WordEven (s.mem.readWord 0x0000)) :
    BoundaryEnd s { s with
      ip := s.mem.readWord 0x0000, fr := 0x0000, ir := 0x0000, halted := false
      sp := Config.freeWord s.draws, bp := Config.freeWord (s.draws + 1), draws := s.draws + 2
      ext := s.ext.tail }
  | resetsL (hv : s.cfg.variant = .L) (hr : s.resetRuns = true) :
    BoundaryEnd s { s with
      ip := 0x0000, fr := 0x0000, halted := false
      sp := Config.freeWord s.draws, bp := Config.freeWord (s.draws + 1), draws := s.draws + 2
      ext := s.ext.tail }
  | passesL (hv : s.cfg.variant = .L) (hr : s.resetRuns = false) : BoundaryEnd s { s with ext := s.ext.tail }

theorem boundary_ends {s b : State} (h : boundary s = .ok b) : BoundaryEnd s b := by
  cases hv : s.cfg.variant with
  | II =>
    cases hr : s.resetRuns
    case false =>
      rw [boundaryII_of_no_reset hv hr, duringEntry_eq_ok] at h
      exact .serves hv hr b h
    case true =>
      have hreset := h
      rw [boundaryII_of_reset hv hr, duringEntry_eq_ok] at hreset
      obtain ⟨u, hu, _⟩ := bind_eq_ok.1 hreset
      rw [boundary_of_resetII hv hr hu] at h
      obtain ⟨_, he, rfl⟩ := resetII_eq_ok.1 hu
      cases h
      exact .resetsII hv hr he
  | L =>
    have hpin : s.resetRuns = (currentPins s).rst := by simp only [State.resetRuns, hv]
    rw [boundary_of_L hv] at h
    cases hr : s.resetRuns
    case false =>
      rw [boundaryL_without_reset (hpin ▸ hr)] at h
      cases h
      exact .passesL hv hr
    case true =>
      rw [boundaryL_with_reset (hpin ▸ hr)] at h
      cases h
      exact .resetsL hv hr

/-- What a dropped request and an entry both keep, the interrupt phase keeps. -/
theorem interruptPhase_keeps {P : State → Prop}
    (hdrop : ∀ (n : Nat) (u : State), P u → P { u with ir := u.ir &&& ~~~ (1#16 <<< n) })
    (henter : ∀ (n : Nat) (u : State), P u → WordEven (entered n u).ip → P (entered n u))
    {s t : State} (hs : P s) (h : interruptPhase s = .ok t) : P t := by
  refine interruptLoop_keeps (P := P) (fun n u v _ hu hv => ?_) hs h
  rcases serveInterrupt_ends hv with ⟨_, rfl⟩ | ⟨_, hip, rfl⟩
  · exact hdrop n u hu
  · exact henter n u hu hip

theorem boundary_cfg_ext {s b : State} (h : boundary s = .ok b) : b.cfg = s.cfg ∧ b.ext = s.ext.tail := by
  cases boundary_ends h with
  | serves _ _ _ hphase =>
    exact interruptPhase_keeps (P := fun u => u.cfg = s.cfg ∧ u.ext = s.ext.tail) (s := withPins s) (fun _ _ hu => hu)
      (fun _ _ hu _ => hu) ⟨rfl, rfl⟩ hphase
  | resetsII | resetsL | passesL => exact ⟨rfl, rfl⟩

/-- No boundary halts the machine. -/
theorem boundary_halted {s b : State} (h : boundary s = .ok b) (hb : b.halted = true) : s.halted = true := by
  cases boundary_ends h with
  | serves _ _ _ hphase =>
    exact interruptPhase_keeps (P := fun u => u.halted = true → s.halted = true) (s := withPins s) (fun _ _ hu => hu)
      (fun _ _ _ _ => nofun) id hphase hb
  | resetsII | resetsL => cases hb
  | passesL => exact hb

/-- After a boundary of variant II nothing is pending. -/
theorem boundary_ir_of_II {s b : State} (h : boundary s = .ok b) (hv : b.cfg.variant = .II) : b.ir = 0 := by
  cases boundary_ends h with
  | serves _ _ _ hphase => exact interruptPhase_ir hphase
  | resetsII => rfl
  | resetsL hL | passesL hL => rw [show s.cfg.variant = .II from hv] at hL; cases hL

/-! ### Configuration and pins -/

/-- Settles O60. Only the boundary consumes pins, and neither it nor an instruction writes the configuration. -/
theorem stepKeepsConfiguration : Obligations.StepKeepsConfiguration := by
  intro s t h
  obtain ⟨b, hb, hnext⟩ := step_eq_next h
  obtain ⟨hcfg, hext⟩ := boundary_cfg_ext hb
  rcases hnext with ⟨_, rfl⟩ | ⟨_, ⟨i, _, hexec⟩ | ⟨_, rfl⟩⟩
  · exact ⟨hcfg, hext⟩
  · obtain ⟨hcfg', hext', -⟩ := systemFrame i b t hexec
    exact ⟨hcfg'.trans hcfg, hext'.trans hext⟩
  · exact ⟨hcfg, hext⟩

/-! ### Halting -/

/-- Of the instructions only a completed `HALT` leaves the machine halted that was not (R151). -/
theorem exec_becomes_halted {i : Instr} {b t : State} (h : exec i b = .next t) (hb : b.halted = false)
    (ht : t.halted = true) : ∃ c, i = .halt c ∧ isExecuted c.cond b.fr = true ∧ undone i b = false := by
  cases exec_eq_next h with
  | skips | undoes => rw [show b.halted = true from ht] at hb; cases hb
  | completes hs hu =>
    have hx : isExecuted i.conf.cond b.fr = true := by simpa [skipped] using hs
    rw [completed_halted, commandState_halted, hb] at ht
    cases i with
    | halt c => exact ⟨c, rfl, hx, hu⟩
    | _ => cases ht

/-- Settles O56. A boundary halts nothing, an undone fetch neither, and of the instructions only `HALT`. -/
theorem onlyHaltHalts : Obligations.OnlyHaltHalts := by
  intro s t h ht
  obtain ⟨b, hb, hnext⟩ := step_eq_next h
  rcases hnext with ⟨_, rfl⟩ | ⟨hh, ⟨i, hfetch, hexec⟩ | ⟨_, rfl⟩⟩
  · exact .inl (boundary_halted hb ht)
  · obtain ⟨c, rfl, hx, hu⟩ := exec_becomes_halted hexec hh ht
    exact .inr ⟨b, c, hb, hfetch, hx, hu⟩
  · rw [show b.halted = true from ht] at hh; cases hh

/-! ### Requests that do not wake -/

/-- Where every pending request is masked the scan only drops them. -/
theorem serveDescending_masked {n : Nat} {s : State}
    (h : ∀ j, j < n → s.ir.getLsbD j = true → isTaken j s.fr = false) :
    ∃ v, serveDescending 0 n s = .ok { s with ir := v } := by
  induction n generalizing s with
  | zero => exact ⟨s.ir, rfl⟩
  | succ n ih =>
    cases hbit : s.ir.getLsbD n
    case false =>
      rw [serveDescending_succ_of_not_pending hbit]
      exact ih fun j hj => h j (by omega)
    case true =>
      have hmask := h n (by omega) hbit
      rw [serveDescending_succ_of_pending hbit, serveInterrupt_masked hmask, bind_of_ok]
      refine ih (s := { s with ir := s.ir &&& ~~~ (1#16 <<< n) }) fun j hj hpend => h j (by omega) ?_
      rw [← served_of_masked hbit hmask, getLsbD_served_ir, Bool.and_eq_true] at hpend
      exact hpend.2

theorem interruptPhase_masked {s : State} (h : ∀ j, j < 16 → s.ir.getLsbD j = true → isTaken j s.fr = false) :
    interruptPhase s = .ok { s with ir := 0 } := by
  obtain ⟨v, hv⟩ := serveDescending_masked h
  rw [← interruptPhase_eq_serveDescending] at hv
  have hzero : v = 0 := interruptPhase_ir hv
  rw [hv, hzero]

/-- Settles O54. On variant II the phase drops every request and leaves the halted bit; on variant L no pin but `RST` is looked
at. -/
theorem maskedRequestsDoNotWake : Obligations.MaskedRequestsDoNotWake := by
  refine ⟨fun s hv hh hr hmask => ?II, fun s hv hh hrst => ?L⟩
  case II =>
    have hphase := interruptPhase_masked (s := withPins s) fun j hj hpend => isTaken_eq_false_iff.2 (hmask j hj hpend)
    have hboundary : boundary s = .ok { withPins s with ir := 0 } := by
      rw [boundaryII_of_no_reset hv hr, hphase]
      rfl
    exact step_of_halted hboundary hh
  case L =>
    have hboundary : boundary s = .ok { s with ext := s.ext.tail } := by
      rw [boundary_of_L hv, boundaryL_without_reset hrst]
    exact step_of_halted hboundary hh

/-! ### The end of a run (R257) -/

/-- A halted machine of variant II has nothing pending: the boundary leaves nothing, and `HALT` requests nothing. -/
theorem ir_eq_zero_of_step_halted {s t : State} (h : step s = .next t) (ht : t.halted = true)
    (hv : t.cfg.variant = .II) : t.ir = 0 := by
  obtain ⟨b, hb, hnext⟩ := step_eq_next h
  rcases hnext with ⟨_, rfl⟩ | ⟨hh, ⟨i, _, hexec⟩ | ⟨_, rfl⟩⟩
  · exact boundary_ir_of_II hb hv
  · obtain ⟨c, rfl, _, hu⟩ := exec_becomes_halted hexec hh ht
    obtain ⟨hcfg, -, -, -, -, -, hir⟩ := systemFrame _ b t hexec
    rw [hir hu rfl, boundary_ir_of_II hb (hcfg ▸ hv)]
  · rw [show b.halted = true from ht] at hh; cases hh

theorem currentPins_quiet {s : State} (h : ∀ p ∈ s.ext, p = Pins.quiet) : currentPins s = Pins.quiet := by
  rw [currentPins]
  cases hext : s.ext with
  | nil => rfl
  | cons p later => exact h p (by rw [hext]; exact List.mem_cons_self)

/-- Nothing happens at the boundary of an ended run, on variant L as long as `RST` is not signalled. -/
theorem boundaryQuiet_of_finished {s : State} (h : s.Finished) (hL : s.cfg.variant = .L → (currentPins s).rst = false) :
    s.boundaryQuiet := by
  rw [State.boundaryQuiet]
  cases hv : s.cfg.variant with
  | II =>
    obtain ⟨hir, hext⟩ := h.2 hv
    exact ⟨hir, currentPins_quiet hext⟩
  | L => exact hL hv

theorem finished_tail {s : State} (h : s.Finished) : State.Finished { s with ext := s.ext.tail } := by
  obtain ⟨hh, hII⟩ := h
  refine ⟨hh, fun hv => ?_⟩
  obtain ⟨hir, hext⟩ := hII hv
  exact ⟨hir, fun p hp => hext p (List.mem_of_mem_tail hp)⟩

theorem core_run_succ {k : Nat} {s t : State} (h : step s = .next t) : core.run (k + 1) s = core.run k t := by
  have hstep : core.step s = .next t := h
  simp only [Host.Core.run, hstep]

/-- An ended run stays for `k` steps, by induction on them. -/
theorem run_of_finished {k : Nat} {s : State} (h : s.Finished)
    (hL : s.cfg.variant = .L → ∀ p ∈ s.ext.take k, p.rst = false) : core.run k s = .next { s with ext := s.ext.drop k } := by
  induction k generalizing s with
  | zero => rfl
  | succ k ih =>
    have hrst : s.cfg.variant = .L → (currentPins s).rst = false := by
      intro hv
      rw [currentPins]
      cases hext : s.ext with
      | nil => rfl
      | cons p later => exact hL hv p (by rw [hext]; exact List.mem_cons_self)
    have hstep := step_of_halted (boundary_of_quiet (boundaryQuiet_of_finished h hrst)) h.1
    rw [core_run_succ hstep, ih (finished_tail h) fun hv p hp => hL hv p ?_]
    · rw [List.drop_tail]
    · cases hext : s.ext with
      | nil => simp [hext] at hp
      | cons q later =>
        rw [hext] at hp
        exact List.mem_cons_of_mem q hp

/-- Settles O55. A step that halts leaves nothing pending; from then on every boundary is quiet, so each step consumes its pins
and does nothing else. -/
theorem finishedRunsStay : Obligations.FinishedRunsStay :=
  ⟨fun _ _ h ht hquiet => ⟨ht, fun hv => ⟨ir_eq_zero_of_step_halted h ht hv, hquiet hv⟩⟩,
    fun _ _ h hL => run_of_finished h hL⟩

end Sys2Proof.Machine
end

