-- ==== Sys2Proof/Proofs/Invariant.lean ====
section
/-! SUPPORT. The invariant of good states (`10_state.md` sections 1 to 4): it holds at power-on, and boundary and instruction keep
it; and outside a reset the two stack pointers stay even. -/

namespace Sys2Proof.Machine

/-! ### Bits that must be zero -/

section masks

variable {v w m : Word}

/-- Clearing bits sets none of the reserved ones. -/
theorem and_and_eq_zero (h : v &&& m = 0) : v &&& w &&& m = 0 := by
  rw [BitVec.and_assoc, BitVec.and_comm w m, ← BitVec.and_assoc, h]
  exact BitVec.zero_and

/-- `Z`, `N` and `C` are reserved on neither variant (R24, R28). -/
theorem flags_not_reserved (x : Variant) : (0x0001 : Word) &&& frReservedMask x = 0 ∧
    (0x0002 : Word) &&& frReservedMask x = 0 ∧ (0x0004 : Word) &&& frReservedMask x = 0 := by
  cases x <;> decide

theorem zero_and_eq_zero (m : Word) : (0 : Word) &&& m = 0 := BitVec.zero_and

/-- The new `Z` and `N` are no reserved bits. -/
theorem znOf_reserved {x : Variant} {fr : Word} (out : Word) (h : fr &&& frReservedMask x = 0) :
    znOf fr out &&& frReservedMask x = 0 := by
  obtain ⟨hZ, hN, -⟩ := flags_not_reserved x
  rw [znOf]
  refine or_and_eq_zero (or_and_eq_zero (and_and_eq_zero h) ?_) ?_
  · split
    · exact hZ
    · exact zero_and_eq_zero _
  · split
    · exact hN
    · exact zero_and_eq_zero _

/-- The new `C` is no reserved bit. -/
theorem withCarry_reserved {x : Variant} {fr : Word} (b : Bool) (h : fr &&& frReservedMask x = 0) :
    withCarry fr b &&& frReservedMask x = 0 := by
  obtain ⟨-, -, hC⟩ := flags_not_reserved x
  rw [withCarry]
  refine or_and_eq_zero (and_and_eq_zero h) ?_
  split
  · exact hC
  · exact zero_and_eq_zero _

/-- The pins make no reserved bit of `IR` pending (R31, R201). -/
theorem pinBits_reserved (p : Pins) : pinBits p &&& irReservedMask = 0 := by
  obtain ⟨rst, nmi, irq⟩ := p
  decide +revert

end masks

theorem even_add {v w : Word} (hv : WordEven v) (hw : WordEven w) : WordEven (v + w) := by
  rw [WordEven, even_iff] at *
  rw [BitVec.toNat_add]
  omega

theorem even_sub {v w : Word} (hv : WordEven v) (hw : WordEven w) : WordEven (v - w) := by
  rw [WordEven, even_iff] at *
  rw [BitVec.toNat_sub]
  omega

/-- The amounts by which `IP` and `SP` move are even. -/
theorem even_ite_two (p : Prop) [Decidable p] : WordEven (if p then 2 else 0) := by
  split <;> decide

/-! ### The boundary keeps the invariant -/

section boundary

variable {s : State}

theorem inv_drop (n : Nat) (h : s.Inv) : State.Inv { s with ir := s.ir &&& ~~~ (1#16 <<< n) } where
  mem_wf := h.mem_wf
  ip_even := h.ip_even
  fr_reserved := h.fr_reserved
  ir_reserved := and_and_eq_zero h.ir_reserved
  no_ir_on_l hv := by
    rw [h.no_ir_on_l hv]
    exact zero_and_eq_zero _

theorem inv_entered (n : Nat) (h : s.Inv) (hip : WordEven (entered n s).ip) : (entered n s).Inv where
  mem_wf := entryMemory_wf h.mem_wf
  ip_even := hip
  fr_reserved := by
    rw [entered]
    split
    · exact and_and_eq_zero h.fr_reserved
    · exact h.fr_reserved
  ir_reserved := and_and_eq_zero h.ir_reserved
  no_ir_on_l hv := (inv_drop n h).no_ir_on_l hv

theorem inv_withPins (hv : s.cfg.variant = .II) (h : s.Inv) : (withPins s).Inv where
  mem_wf := h.mem_wf
  ip_even := h.ip_even
  fr_reserved := h.fr_reserved
  ir_reserved := or_and_eq_zero h.ir_reserved (pinBits_reserved _)
  no_ir_on_l hL := by
    rw [show s.cfg.variant = .L from hL] at hv
    cases hv

theorem boundary_keeps_inv {b : State} (h : s.Inv) (hb : boundary s = .ok b) : b.Inv := by
  cases boundary_ends hb with
  | serves hv _ _ hphase =>
    exact interruptPhase_keeps (P := State.Inv) (fun n _ hu => inv_drop n hu) (fun n _ hu hip => inv_entered n hu hip)
      (inv_withPins hv h) hphase
  | resetsII _ _ he =>
    exact ⟨h.mem_wf, he, zero_and_eq_zero _, zero_and_eq_zero _, fun _ => rfl⟩
  | resetsL => exact ⟨h.mem_wf, (by decide : WordEven 0), zero_and_eq_zero _, h.ir_reserved, h.no_ir_on_l⟩
  | passesL => exact ⟨h.mem_wf, h.ip_even, h.fr_reserved, h.ir_reserved, h.no_ir_on_l⟩

end boundary

/-! ### An instruction keeps the invariant -/

section instruction

variable {i : Instr} {s : State}

theorem nextIP_even (c : Conf) (h : WordEven s.ip) : WordEven (nextIP c s) :=
  even_add (even_add (even_add h (by decide)) (even_ite_two _)) (even_ite_two _)

/-- A jump target is even because the command has checked it (R185, R186). -/
theorem targetIP_even (h : WordEven s.ip) (hc : commandChecks i s) : WordEven (targetIP i s) := by
  cases i
  case setip | addip => exact hc.1
  all_goals exact nextIP_even _ h

theorem commandState_fr_reserved (h : s.fr &&& frReservedMask s.cfg.variant = 0) (hc : commandChecks i s) :
    (commandState i s).fr &&& frReservedMask s.cfg.variant = 0 := by
  cases i
  case frset => exact hc
  case setip | addip => exact hc.2
  case add | sub | mul =>
    rw [commandState, writeC_eq]
    exact withCarry_reserved _ h
  all_goals exact h

theorem commandState_ir_reserved (h : s.ir &&& irReservedMask = 0) (hc : commandChecks i s) :
    (commandState i s).ir &&& irReservedMask = 0 := by
  cases i
  case intr => exact or_and_eq_zero h hc.2
  case div | mod =>
    rw [commandState, afterDivision]
    split
    · exact or_and_eq_zero h (by decide)
    · exact h
  all_goals exact h

/-- On variant L no command requests an interrupt (D21). -/
theorem commandState_ir_on_L (hv : s.cfg.variant = .L) (hc : commandChecks i s) : (commandState i s).ir = s.ir := by
  cases i
  case intr =>
    rw [hc.1] at hv
    cases hv
  case div | mod =>
    rw [commandState, afterDivision, hv]
    exact if_neg nofun
  all_goals rfl

theorem completed_mem_wf {c : Conf} (out : Word) {t : State} (h : t.mem.wf = true) : (completed c out t).mem.wf = true := by
  rw [completed]
  split
  · exact writeWord_wf _ _ h
  · exact h

theorem completed_fr_reserved {x : Variant} {c : Conf} (out : Word) {t : State} (h : t.fr &&& frReservedMask x = 0) :
    (completed c out t).fr &&& frReservedMask x = 0 := by
  rw [completed_fr]
  split
  · exact znOf_reserved out h
  · exact h

/-- On variant L the `BUS` pin answers nothing (R219). -/
theorem variant_of_busFault {cfg : Config} {a : Word} {w : Width} {k : AccessKind} (h : busFault cfg a w k = true) :
    cfg.variant = .II := by
  rw [busFault, Bool.and_eq_true, decide_eq_true_iff] at h
  exact h.1

theorem variant_of_undone (h : undone i s = true) : s.cfg.variant = .II := by
  rw [undone, Bool.and_eq_true, List.any_eq_true] at h
  obtain ⟨_, x, _, hbus⟩ := h
  exact variant_of_busFault hbus

/-- The pending bit of the `BUS` interrupt, which variant L does not have. -/
theorem inv_undone (h : s.Inv) (hv : s.cfg.variant = .II) : State.Inv { s with ir := s.ir ||| 0x0004 } where
  mem_wf := h.mem_wf
  ip_even := h.ip_even
  fr_reserved := h.fr_reserved
  ir_reserved := or_and_eq_zero h.ir_reserved (by decide)
  no_ir_on_l hL := by
    rw [show s.cfg.variant = .L from hL] at hv
    cases hv

theorem inv_completed (h : s.Inv) (hc : commandChecks i s) (out : Word) :
    (completed i.conf out (commandState i s)).Inv where
  mem_wf := completed_mem_wf out (commandState_mem_wf h.mem_wf)
  ip_even := by
    rw [completed_ip, commandState_ip]
    exact targetIP_even h.ip_even hc
  fr_reserved := by
    rw [completed_cfg, commandState_cfg]
    exact completed_fr_reserved out (commandState_fr_reserved h.fr_reserved hc)
  ir_reserved := commandState_ir_reserved h.ir_reserved hc
  no_ir_on_l hv := by
    rw [completed_cfg, commandState_cfg] at hv
    rw [completed_ir, commandState_ir_on_L hv hc, h.no_ir_on_l hv]

theorem exec_keeps_inv {t : State} (h : s.Inv) (hexec : exec i s = .next t) : t.Inv := by
  cases exec_eq_next hexec with
  | skips => exact ⟨h.mem_wf, nextIP_even _ h.ip_even, h.fr_reserved, h.ir_reserved, h.no_ir_on_l⟩
  | undoes _ hu => exact inv_undone h (variant_of_undone hu)
  | completes _ _ hc out => exact inv_completed h hc out

end instruction

/-- Settles O57. A step is a boundary and then nothing, an instruction, or a fetch that the `BUS` pin undoes; each keeps the
invariant. -/
theorem stepKeepsInvariant : Obligations.StepKeepsInvariant := by
  intro s t hs h
  obtain ⟨b, hb, hnext⟩ := step_eq_next h
  have hinv : b.Inv := boundary_keeps_inv hs hb
  rcases hnext with ⟨_, rfl⟩ | ⟨_, ⟨i, _, hexec⟩ | ⟨hbus, rfl⟩⟩
  · exact hinv
  · exact exec_keeps_inv hinv hexec
  · exact inv_undone hinv (variant_of_busFault (access_eq_bus.1 (fetchInstr_eq_bus.1 hbus)).2)

/-- Settles O58. Power-on of variant II has one pending bit, that of the reset, and no other field is set. -/
theorem resetHasInvariant : Obligations.ResetHasInvariant where
  mem_wf := rfl
  ip_even := by decide
  fr_reserved := zero_and_eq_zero _
  ir_reserved := by decide
  no_ir_on_l := nofun

/-! ### The stack pointers (D10) -/

section pointers

variable {s t : State}

/-- Outside a reset a boundary moves `SP` by entries alone, four bytes each, and never `BP`. -/
theorem boundary_keeps_even (hr : s.resetRuns = false) (hsp : WordEven s.sp) (hbp : WordEven s.bp)
    (h : boundary s = .ok t) : WordEven t.sp ∧ WordEven t.bp := by
  cases boundary_ends h with
  | serves _ _ _ hphase =>
    exact interruptPhase_keeps (P := fun u => WordEven u.sp ∧ WordEven u.bp) (s := withPins s) (fun _ _ hu => hu)
      (fun _ u hu _ => ⟨(even_sub_four u.sp).trans hu.1, hu.2⟩) ⟨hsp, hbp⟩ hphase
  | resetsII _ hr' | resetsL _ hr' => rw [hr] at hr'; cases hr'
  | passesL => exact ⟨hsp, hbp⟩

theorem spAfterInputs_even (c : Conf) (h : WordEven s.sp) : WordEven (spAfterInputs c s) :=
  even_add (even_add h (even_ite_two _)) (even_ite_two _)

/-- The two commands that install a pointer have checked it (R155, R157). -/
theorem commandState_pointers_even {i : Instr} (hsp : WordEven s.sp) (hbp : WordEven s.bp) (hc : commandChecks i s) :
    WordEven (commandState i s).sp ∧ WordEven (commandState i s).bp := by
  have hsp' : WordEven (spAfterInputs i.conf s) := spAfterInputs_even _ hsp
  cases i
  case bpset => exact ⟨hsp', hc⟩
  case spset => exact ⟨hc, hbp⟩
  all_goals exact ⟨hsp', hbp⟩

theorem exec_keeps_even {i : Instr} (hsp : WordEven s.sp) (hbp : WordEven s.bp) (h : exec i s = .next t) :
    WordEven t.sp ∧ WordEven t.bp := by
  cases exec_eq_next h with
  | skips | undoes => exact ⟨hsp, hbp⟩
  | completes _ _ hc =>
    obtain ⟨hsp', hbp'⟩ := commandState_pointers_even hsp hbp hc
    rw [completed_sp, completed_bp]
    exact ⟨even_sub hsp' (even_ite_two _), hbp'⟩

end pointers

/-- Settles O59. Boundary and instruction keep the parity of both pointers; an undone fetch writes neither. -/
theorem stepKeepsPointersEven : Obligations.StepKeepsPointersEven := by
  intro s t hr hsp hbp h
  obtain ⟨b, hb, hnext⟩ := step_eq_next h
  obtain ⟨hsp', hbp'⟩ := boundary_keeps_even hr hsp hbp hb
  rcases hnext with ⟨_, rfl⟩ | ⟨_, ⟨i, _, hexec⟩ | ⟨_, rfl⟩⟩
  · exact ⟨hsp', hbp'⟩
  · exact exec_keeps_even hsp' hbp' hexec
  · exact ⟨hsp', hbp'⟩

end Sys2Proof.Machine
end
